-- ==== Sys2Proof/Word.lean ====
section
/-! DEFINITION. The word of this machine, the byte (spec/00_scope.md R7). Pointers have no type of their own: PTR_W is a
parameter of the machine, held in its state, so a pointer is a `Nat` and the arithmetic of spec/00_scope.md R10 is written out
modulo `2^PTR_W` (Machine/Operands.lean); that a pointer register stays below `2^PTR_W` is part of `State.Inv`. DEDUCED, log
entry 6. -/

namespace Sys2Proof

/-- A memory cell, the pending-output register and an instruction are 8 bits wide (spec/00_scope.md R7). -/
abbrev Byte := BitVec 8

end Sys2Proof
end

