-- ==== Sys2Proof/Config.lean ====
section
/-! DEFINITION. The construction parameters of a machine (spec/00_scope.md R5, R6) and the values State.reset takes for them. -/

namespace Sys2Proof

/-- What a caller chooses when it creates a machine, fixed for the life of the machine: IMEM_CAP and DMEM_SIZE
(spec/00_scope.md R5) and the pointer width PTR_W the spec adds (R6). All three are OPEN in the spec. -/
structure Config where
  imemCap  : Nat
  dmemSize : Nat
  ptrW     : Nat
  deriving DecidableEq, Repr

/-- What the spec asks of the parameters: a positive width, and both sizes strictly below `2^PTR_W`; size 0 is admitted
(spec/00_scope.md R5, R6; D14). -/
abbrev Config.valid (c : Config) : Prop :=
  0 < c.ptrW ∧ c.imemCap < 2 ^ c.ptrW ∧ c.dmemSize < 2 ^ c.ptrW

/-- The parameters of `State.reset`. DESIGN CHOICE, unsafe, log entry 1: the spec leaves all three open. 16 is the width its
test vectors name as an example; both sizes are the largest that width admits. No statement about machines in general rests
on them: statements quantify over the parameters. -/
def Config.forReset : Config := { imemCap := 65535, dmemSize := 65535, ptrW := 16 }

end Sys2Proof
end

