-- ==== Sys2Proof/Machine/State.lean ====
section
/-! DEFINITION. Everything the spec gives the machine (spec/10_state.md), the two streams of its environment, the reasons a
step can stop, and the state after creation. -/

namespace Sys2Proof.Machine

/-- One instance of the bounded memory: its length and its bytes, nothing else (spec/20_memory.md R50). The bytes are the
listed cells; an unlisted address below `size` holds 0, what creation fills a memory with (R50, R51). `size` of the
instruction memory is the register `plen` (spec/10_state.md R28), `size` of the data memory is DMEM_SIZE. -/
structure Memory where
  size  : Nat
  cells : List Host.Cell
  deriving DecidableEq, Repr

/-- `create(size)`: a zero-filled buffer (spec/20_memory.md R51). -/
def Memory.create (size : Nat) : Memory := { size := size, cells := [] }

/-- The canonical form: addresses strictly rising, every listed address inside the memory, no listed byte 0. -/
abbrev Memory.wf (m : Memory) : Prop :=
  m.cells.Pairwise (fun c d => c.1 < d.1) ∧ ∀ c ∈ m.cells, c.1 < m.size ∧ c.2 ≠ 0#8

/-- The two fatal conditions (spec/60_exceptions.md R190 to R192). -/
inductive FaultKind where
  /-- The current cell is accessed with `dp` at or above DMEM_SIZE (R191). -/
  | outOfBounds
  /-- A bracket scan that is needed finds no partner (R192). -/
  | unmatchedBracket
  deriving DecidableEq, Repr

/-- The fault record's pair `(kind, fip)` (spec/10_state.md R29). -/
structure FaultRecord where
  kind : FaultKind
  fip  : Nat
  deriving DecidableEq, Repr

/-- One answer of the input stream to one request (spec/10_state.md R35). -/
inductive InputAnswer where
  | byte (b : Byte)
  | eof
  deriving DecidableEq, Repr

/-- The whole state (spec/10_state.md, the tuple at its head). The first two fields and `dmem.size` are the parameters, which
no operation changes. The last two are the environment's side, held here because a step can show it nowhere else: log
entries 2 and 3. -/
structure State where
  /-- IMEM_CAP (spec/00_scope.md R5). -/
  imemCap : Nat
  /-- PTR_W (spec/00_scope.md R6). -/
  ptrW    : Nat
  /-- Instruction memory, with its length `plen` (spec/10_state.md R31, R28). -/
  imem    : Memory
  /-- Data memory, with its length DMEM_SIZE (spec/10_state.md R32). -/
  dmem    : Memory
  /-- The instruction pointer (spec/10_state.md R21). -/
  ip      : Nat
  /-- The data pointer (spec/10_state.md R24). -/
  dp      : Nat
  /-- The pending-output register, 0 when nothing is pending (spec/10_state.md R26). -/
  pout    : Byte
  /-- The fault record, `none` for NONE (spec/10_state.md R29). -/
  fault   : Option FaultRecord
  /-- The answers the input stream will give, in order; EOF for ever after them (spec/10_state.md R35, R36). -/
  input   : List InputAnswer
  /-- The bytes emitted so far, oldest first (spec/10_state.md R34). -/
  out     : List Byte
  deriving DecidableEq, Repr

/-- `plen`, the length of the instruction memory now installed (spec/10_state.md R28). DEDUCED, log entry 5: the spec's
"length(instruction_memory)" is stored once. -/
def State.plen (s : State) : Nat := s.imem.size

/-- DMEM_SIZE (spec/00_scope.md R5). -/
def State.dmemSize (s : State) : Nat := s.dmem.size

/-- The parameters the machine was created with (spec/00_scope.md R5, R6). -/
def State.config (s : State) : Config :=
  { imemCap := s.imemCap, dmemSize := s.dmem.size, ptrW := s.ptrW }

/-- Why a step stops: only on a machine whose fault record is already set, where the spec's `step()` returns
`FAULT(kind, fip)` and changes nothing (spec/40_step_cycle.md R101; spec/60_exceptions.md R199). The step that raises the fault
is not one of these: it answers a next state that carries the record (log entry 4). -/
inductive Fault where
  /-- Raised by phase 0 of a step, for a record of kind OutOfBounds. Safe: the spec's result, and no state changes. -/
  | outOfBounds (fip : Nat)
  /-- Raised by phase 0 of a step, for a record of kind UnmatchedBracket. Safe: the spec's result, and no state changes. -/
  | unmatchedBracket (fip : Nat)
  deriving DecidableEq, Repr

/-- Why the model gives no meaning. -/
inductive Refusal where
  /-- Raised by an arm of `exec` for an instruction that has no meaning yet; no arm raises it. Safe. -/
  | notModelled (mnemonic : String)
  deriving DecidableEq, Repr

/-- What a step or a meaning answers. -/
abbrev Result := Host.Outcome State Fault Refusal

/-- `create(IMEM_CAP, DMEM_SIZE)`, with PTR_W: the machine's only reset (spec/70_reset_and_hazards.md R230), every field at the
value of spec/10_state.md R40. The input stream is the environment's and is chosen by `input`. -/
def State.create (c : Config) (input : List InputAnswer) : State :=
  { imemCap := c.imemCap
    ptrW := c.ptrW
    imem := Memory.create c.imemCap
    dmem := Memory.create c.dmemSize
    ip := 0
    dp := 0
    pout := 0#8
    fault := none
    input := input
    out := [] }

/-- The machine right after reset: `create` with the parameters of `Config.forReset` (log entry 1) and an input stream that
has no byte to give (log entry 3). -/
def State.reset : State := State.create Config.forReset []

end Sys2Proof.Machine
end

