-- ==== Sys2Proof/Machine/Operands.lean ====
section
/-! DEFINITION. The operands and the arithmetic of the machine: `+8` and `-8` on cells, `+P` and `-P` on pointers
(spec/00_scope.md R10), and the one addressing mode (spec/20_memory.md R59). -/

namespace Sys2Proof.Machine

/-- `a +8 b`: modulo 256 (spec/00_scope.md R10). -/
def add8 (a b : Byte) : Byte := a + b

/-- `a -8 b`: modulo 256 (spec/00_scope.md R10). -/
def sub8 (a b : Byte) : Byte := a - b

/-- `a +P b`: modulo `2^PTR_W` (spec/00_scope.md R10). -/
def addP (w : Nat) (a b : Nat) : Nat := (a + b) % 2 ^ w

/-- `a -P b`: modulo `2^PTR_W`, never negative (spec/00_scope.md R10). -/
def subP (w : Nat) (a b : Nat) : Nat := (a + (2 ^ w - b % 2 ^ w)) % 2 ^ w

/-- The effective address of every data access: `dp`, as it stands (spec/20_memory.md R57, R59). -/
def State.cellAddr (s : State) : Nat := s.dp

end Sys2Proof.Machine
end

