-- ==== Sys2Proof/Machine/Ops.lean ====
section
/-! DEFINITION. The named operations every meaning is written with: the bounded memory controller (spec/20_memory.md), the
environment primitives (spec/00_scope.md R13), the register writes, and raising a fault (spec/60_exceptions.md R195). -/

namespace Sys2Proof.Machine

/-! ### The bounded memory controller -/

/-- The byte listed for an address, 0 where none is listed (spec/20_memory.md R50: zero-filled). -/
def cellsGet : List Host.Cell → Nat → Byte
  | [], _ => 0#8
  | (b, v) :: rest, a => if b = a then v else cellsGet rest a

/-- Stores a byte in the canonical list: a zero is not listed. -/
def cellsSet : List Host.Cell → Nat → Byte → List Host.Cell
  | [], a, v => if v = 0#8 then [] else [(a, v)]
  | (b, w) :: rest, a, v =>
    if a < b then (if v = 0#8 then (b, w) :: rest else (a, v) :: (b, w) :: rest)
    else if a = b then (if v = 0#8 then rest else (a, v) :: rest)
    else (b, w) :: cellsSet rest a v

/-- `imem[a]`, `dmem[a]`: the stored byte itself, without a check (spec/00_scope.md R12). -/
def Memory.get (m : Memory) (a : Nat) : Byte := cellsGet m.cells a

/-- The memory with the byte at `a` replaced, without a check; the length stays (spec/20_memory.md R52). -/
def Memory.put (m : Memory) (a : Nat) (v : Byte) : Memory := { m with cells := cellsSet m.cells a v }

/-- `read(address)` (spec/20_memory.md R53): the address is used as it is (R57). -/
def Memory.read (m : Memory) (a : Nat) : Except FaultKind Byte :=
  if m.size ≤ a then .error .outOfBounds else .ok (m.get a)

/-- `write(address, value)` (spec/20_memory.md R54): the check comes before the store (R58). -/
def Memory.write (m : Memory) (a : Nat) (v : Byte) : Except FaultKind Memory :=
  if m.size ≤ a then .error .outOfBounds else .ok (m.put a v)

/-- A memory grown, where it must be, to hold the bytes `bs` from address `a` on. -/
def Memory.overlay (m : Memory) (a : Nat) : List Byte → Memory
  | [] => m
  | b :: bs => Memory.overlay { size := max m.size (a + 1), cells := cellsSet m.cells a b } (a + 1) bs

/-- A memory of exactly the bytes `bs` (spec/70_reset_and_hazards.md R232: "resized to program length"). -/
def Memory.ofBytes (bs : List Byte) : Memory := (Memory.create 0).overlay 0 bs

/-- A memory cut off at address `n`: only the cells below `n` are left. -/
def Memory.takeBelow (m : Memory) (n : Nat) : Memory :=
  { size := n, cells := m.cells.filter (fun c => decide (c.1 < n)) }

/-- `MemRead(addr, 1)` (spec/20_memory.md R53). -/
def State.memRead (s : State) (a : Nat) : Except FaultKind Byte := s.dmem.read a

/-- `MemWrite(addr, 1, v)` (spec/20_memory.md R54). -/
def State.memWrite (s : State) (a : Nat) (v : Byte) : Except FaultKind State :=
  match s.dmem.write a v with
  | .ok m => .ok { s with dmem := m }
  | .error k => .error k

/-- `IMemRead(addr)` (spec/20_memory.md R56). -/
def State.imemRead (s : State) (a : Nat) : Except FaultKind Byte := s.imem.read a

/-! ### The environment -/

/-- `Emit(b)`: appends to the output stream, never fails (spec/10_state.md R34; spec/60_exceptions.md R210). -/
def State.emit (s : State) (b : Byte) : State := { s with out := s.out ++ [b] }

/-- `InputRead()`: one request (spec/10_state.md R35). The answers come from the list in State, and EOF for ever once it is
used up (R36, the customary stream; log entry 3). -/
def State.inputRead (s : State) : InputAnswer × State :=
  match s.input with
  | [] => (.eof, s)
  | r :: rest => (r, { s with input := rest })

/-! ### Register writes -/

/-- `ip <- ip + 1`, on mathematical integers (spec/10_state.md R22: it never wraps). -/
def State.advance (s : State) : State := { s with ip := s.ip + 1 }

/-- `ip <- target` (spec/00_scope.md R11). -/
def State.jump (s : State) (target : Nat) : State := { s with ip := target }

/-- `dp <- v`. -/
def State.pointAt (s : State) (v : Nat) : State := { s with dp := v }

/-- `pout <- v`: stages a byte, or nothing if `v` is 0 (spec/10_state.md R26; spec/44_io.md R161). -/
def State.stage (s : State) (v : Byte) : State := { s with pout := v }

/-! ### Raising a fault, the machine's one exception -/

/-- `fault <- (K, ip)`, and nothing else (spec/60_exceptions.md R195, R196, R205). There is no return from it (R206). -/
def State.recordFault (s : State) (k : FaultKind) : State := { s with fault := some { kind := k, fip := s.ip } }

/-- `raise K` inside phase 4: the step ends with the record written. It is a next state, so that what the step has already
done stays (spec/60_exceptions.md R197): log entry 4. -/
def raise (k : FaultKind) (s : State) : Result := .next (s.recordFault k)

/-- Goes on with a primitive's value, or raises its fault in `s` (spec/00_scope.md R14). -/
def orRaise {α : Type} (r : Except FaultKind α) (s : State) (k : α → Result) : Result :=
  match r with
  | .ok v => k v
  | .error f => raise f s

/-- The numeric code of a kind (spec/60_exceptions.md R194). -/
def FaultKind.code : FaultKind → Nat
  | .outOfBounds => 1
  | .unmatchedBracket => 2

/-- The fault record as a hardware status field: 0 for NONE (spec/60_exceptions.md R194). -/
def State.faultCode (s : State) : Nat :=
  match s.fault with
  | none => 0
  | some r => r.kind.code

/-- The result `FAULT(kind, fip)` a record stands for (spec/40_step_cycle.md R101). -/
def FaultRecord.asFault (r : FaultRecord) : Fault :=
  match r.kind with
  | .outOfBounds => .outOfBounds r.fip
  | .unmatchedBracket => .unmatchedBracket r.fip

/-- The record a result `FAULT(kind, fip)` reports. -/
def Fault.record : Fault → FaultRecord
  | .outOfBounds fip => { kind := .outOfBounds, fip := fip }
  | .unmatchedBracket fip => { kind := .unmatchedBracket, fip := fip }

/-- The machine on which a program has been loaded whose last bytes, from `ip` on, are `bs`, and whose bytes below `ip` are
those already there; with no fault recorded, since a faulted machine fetches nothing. Used by `State.withFetchWord` only: log
entry 8. -/
def State.installAtIp (s : State) (bs : List Byte) : State :=
  { s with fault := none, imem := (s.imem.takeBelow s.ip).overlay s.ip bs }

end Sys2Proof.Machine
end

