-- ==== Sys2Proof/Machine/CellArith.lean ====
section
/-! DEFINITION. The cell arithmetic instructions `+` and `-` (spec/42_cell_arith.md). -/

namespace Sys2Proof.Machine

/-- The read-modify-write of the current cell: the read comes first and raises OutOfBounds before anything is written
(spec/42_cell_arith.md R132, R134). -/
def updateCell (f : Byte → Byte) (s : State) : Result :=
  orRaise (s.memRead s.cellAddr) s fun v =>
    orRaise (s.memWrite s.cellAddr (f v)) s fun t => .next t.advance

/-- `+` (spec/42_cell_arith.md R130). -/
def execInc (s : State) : Result := updateCell (fun v => add8 v 1#8) s

/-- `-` (spec/42_cell_arith.md R131). -/
def execDec (s : State) : Result := updateCell (fun v => sub8 v 1#8) s

end Sys2Proof.Machine
end

