-- ==== Sys2Proof/Machine/InOut.lean ====
section
/-! DEFINITION. The input and output instructions `.` and `,` (spec/44_io.md). -/

namespace Sys2Proof.Machine

/-- `.` (spec/44_io.md R160): stages the cell; the next step's flush emits it. -/
def execOut (s : State) : Result :=
  orRaise (s.memRead s.cellAddr) s fun v => .next (s.stage v).advance

/-- `,` (spec/44_io.md R164): one request; EOF only advances (R166); a byte is stored with `ip` unchanged (R165), and is already
taken from the stream when the store raises (R167). -/
def execInp (s : State) : Result :=
  match s.inputRead with
  | (.eof, t) => .next t.advance
  | (.byte b, t) => orRaise (t.memWrite t.cellAddr b) t fun u => .next u

end Sys2Proof.Machine
end

