-- ==== Sys2Proof/Machine/Flags.lean ====
section
/-! DEFINITION. The machine has no flags (spec/10_state.md R27; spec/42_cell_arith.md R133): no instruction leaves a condition
behind. The one condition it tests, at the moment a bracket executes, is that the current cell is zero. -/

namespace Sys2Proof.Machine

/-- The condition of `[` and, negated, of `]` (spec/43_loop.md R141, R144). -/
def cellIsZero (v : Byte) : Bool := v == 0#8

end Sys2Proof.Machine
end

