-- ==== Sys2Proof/Syntax.lean ====
section
/-! DEFINITION. The instruction set: one constructor per row of spec/opcode_table.json (spec/30_encoding.md R83). -/

namespace Sys2Proof

/-- The nine instruction classes of spec/30_encoding.md R84, named by the spec's labels (R83). No instruction has an operand
(R82). `nop` carries the byte it was decoded from: DESIGN CHOICE, safe, log entry 7. -/
inductive Instr where
  /-- `>` (spec/41_pointer.md R120). -/
  | right
  /-- `<` (spec/41_pointer.md R121). -/
  | left
  /-- `+` (spec/42_cell_arith.md R130). -/
  | inc
  /-- `-` (spec/42_cell_arith.md R131). -/
  | dec
  /-- `[` (spec/43_loop.md R141). -/
  | loopBegin
  /-- `]` (spec/43_loop.md R144). -/
  | loopEnd
  /-- `.` (spec/44_io.md R160). -/
  | out
  /-- `,` (spec/44_io.md R164). -/
  | inp
  /-- Any other byte (spec/45_nop.md R180). -/
  | nop (op : Byte)
  deriving DecidableEq, Repr

end Sys2Proof
end

