-- ==== Sys2Proof/Decode.lean ====
section
/-! DEFINITION. The opcode map, the decoder and the encoder (spec/30_encoding.md R80 to R91). -/

namespace Sys2Proof

/-! The byte values of the eight opcode characters (spec/30_encoding.md R83; D3, G1: ASCII, the spec's own choice;
UNVERIFIED, unsafe, log entry 9). -/

def opRight : Byte := 0x3E#8
def opLeft : Byte := 0x3C#8
def opInc : Byte := 0x2B#8
def opDec : Byte := 0x2D#8
def opLoopBegin : Byte := 0x5B#8
def opLoopEnd : Byte := 0x5D#8
def opOut : Byte := 0x2E#8
def opInp : Byte := 0x2C#8

/-- The decoder: the whole byte is compared with each opcode, and any other byte is a no-op (spec/30_encoding.md R84, R86). -/
def decodeByte (op : Byte) : Instr :=
  if op = opRight then .right else if op = opLeft then .left
  else if op = opInc then .inc else if op = opDec then .dec
  else if op = opLoopBegin then .loopBegin else if op = opLoopEnd then .loopEnd
  else if op = opOut then .out else if op = opInp then .inp
  else .nop op

/-- Why a list of bytes holds no instruction. There is no illegal encoding (spec/30_encoding.md R86), so the only reason is
that no byte is left. -/
inductive Reject where
  | noByteLeft
  deriving DecidableEq, Repr

/-- Takes one instruction, always one byte long (spec/30_encoding.md R80, R81), off a list of bytes. -/
def decode : List Byte → Except Reject (Instr × List Byte)
  | [] => .error .noByteLeft
  | op :: rest => .ok (decodeByte op, rest)

/-- The one byte of an instruction (spec/30_encoding.md R83). -/
def encodeByte : Instr → Byte
  | .right => opRight
  | .left => opLeft
  | .inc => opInc
  | .dec => opDec
  | .loopBegin => opLoopBegin
  | .loopEnd => opLoopEnd
  | .out => opOut
  | .inp => opInp
  | .nop op => op

/-- The words of an instruction: the one byte of format B1 (spec/30_encoding.md R80). -/
def encode (i : Instr) : List Byte := [encodeByte i]

/-- A program text read as instructions, the byte at position `k` being the instruction at address `k` (spec/30_encoding.md
R89). -/
def decodeProgram : List Byte → List Instr
  | [] => []
  | op :: rest => decodeByte op :: decodeProgram rest

/-- The bytes of a list of instructions (spec/30_encoding.md R89). -/
def encodeProgram : List Instr → List Byte
  | [] => []
  | i :: rest => encode i ++ encodeProgram rest

/-- `n` bytes of the number `w`, the least significant first. -/
def lowBytes : Nat → Nat → List Byte
  | 0, _ => []
  | n + 1, w => BitVec.ofNat 8 w :: lowBytes n (w / 256)

/-- The bytes of an instruction as spec/opcode_table.json numbers its bits: `nbits` bits of `w` in whole bytes, every bit above
them 0, and never fewer bytes than an instruction has. -/
def tableBytes (nbits w : Nat) : List Byte := lowBytes (max 1 ((nbits + 7) / 8)) (w % 2 ^ nbits)

/-- The instruction the decoder reads from a table word; none where the bytes are not exactly one instruction (an instruction
is one byte, spec/30_encoding.md R80). -/
def decodeTableWord (nbits w : Nat) : Option Instr :=
  match decode (tableBytes nbits w) with
  | .ok (i, []) => some i
  | .ok (_, _ :: _) => none
  | .error _ => none

end Sys2Proof
end

