-- ==== Sys2Proof/Machine/Matcher.lean ====
section
/-! DEFINITION. The bracket matcher: the two scans of instruction memory (spec/43_loop.md R142, R145, R147, R149 to R151). -/

namespace Sys2Proof.Machine

/-- The loop of `ScanForward` at position `pos` with nesting counter `depth`, where `left` positions remain below `plen`
(spec/43_loop.md R142). The counter is tested before it is decremented. -/
def scanForwardFrom (m : Memory) : (left pos depth : Nat) → Except FaultKind Nat
  | 0, _, _ => .error .unmatchedBracket
  | left + 1, pos, depth =>
    if m.get pos = opLoopBegin then scanForwardFrom m left (pos + 1) (depth + 1)
    else if m.get pos = opLoopEnd then
      if depth = 0 then .ok (pos + 1) else scanForwardFrom m left (pos + 1) (depth - 1)
    else scanForwardFrom m left (pos + 1) depth

/-- `ScanForward(p)`: the address after the matching `]`, or UnmatchedBracket when the scan reaches `plen` (spec/43_loop.md
R142, R147). -/
def scanForward (m : Memory) (p : Nat) : Except FaultKind Nat :=
  scanForwardFrom m (m.size - (p + 1)) (p + 1) 0

/-- The loop of `ScanBackward` with the positions below `bound` still to be examined (spec/43_loop.md R145): the position
examined is `bound - 1`, and nothing lies before address 0. -/
def scanBackwardFrom (m : Memory) : (bound depth : Nat) → Except FaultKind Nat
  | 0, _ => .error .unmatchedBracket
  | pos + 1, depth =>
    if m.get pos = opLoopEnd then scanBackwardFrom m pos (depth + 1)
    else if m.get pos = opLoopBegin then
      if depth = 0 then .ok pos else scanBackwardFrom m pos (depth - 1)
    else scanBackwardFrom m pos depth

/-- `ScanBackward(p)`: the address of the matching `[` itself, or UnmatchedBracket (spec/43_loop.md R145, R147). -/
def scanBackward (m : Memory) (p : Nat) : Except FaultKind Nat := scanBackwardFrom m p 0

end Sys2Proof.Machine
end

