-- ==== Sys2Proof/Machine/Loop.lean ====
section
/-! DEFINITION. The loop instructions `[` and `]` (spec/43_loop.md): first the data read, then the test, then the scan only if
the test calls for it (R148). -/

namespace Sys2Proof.Machine

/-- `ip` goes to the target of a scan, or the scan's fault is raised with `ip` still at the bracket (spec/43_loop.md R147,
R149). -/
def jumpToScan (target : Except FaultKind Nat) (s : State) : Result :=
  orRaise target s fun t => .next (s.jump t)

/-- `[` (spec/43_loop.md R141). -/
def execLoopBegin (s : State) : Result :=
  orRaise (s.memRead s.cellAddr) s fun v =>
    if cellIsZero v then jumpToScan (scanForward s.imem s.ip) s else .next s.advance

/-- `]` (spec/43_loop.md R144). -/
def execLoopEnd (s : State) : Result :=
  orRaise (s.memRead s.cellAddr) s fun v =>
    if cellIsZero v then .next s.advance else jumpToScan (scanBackward s.imem s.ip) s

end Sys2Proof.Machine
end

