-- ==== Sys2Proof/Machine/NoOp.lean ====
section
/-! DEFINITION. Every other byte (spec/45_nop.md). -/

namespace Sys2Proof.Machine

/-- NOP (spec/45_nop.md R180); the 248 byte values behave alike (R181), so the byte is not looked at. -/
def execNop (_op : Byte) (s : State) : Result := .next s.advance

end Sys2Proof.Machine
end

