-- ==== Sys2Proof/Machine/Pointer.lean ====
section
/-! DEFINITION. The pointer instructions `>` and `<` (spec/41_pointer.md): no bounds check, no data access, no fault (R122). -/

namespace Sys2Proof.Machine

/-- `>` (spec/41_pointer.md R120, R123). -/
def execRight (s : State) : Result := .next (s.pointAt (addP s.ptrW s.dp 1)).advance

/-- `<` (spec/41_pointer.md R121, R123). -/
def execLeft (s : State) : Result := .next (s.pointAt (subP s.ptrW s.dp 1)).advance

end Sys2Proof.Machine
end

