-- ==== Sys2Proof/Machine/Dispatch.lean ====
section
/-! DEFINITION. Phase 4 of a step: the rule of the decoded class is performed, once (spec/40_step_cycle.md R108). -/

namespace Sys2Proof.Machine

def exec (i : Instr) (s : State) : Host.Outcome State Fault Refusal :=
  match i with
  | .right => Sys2Proof.Machine.execRight s
  | .left => Sys2Proof.Machine.execLeft s
  | .inc => Sys2Proof.Machine.execInc s
  | .dec => Sys2Proof.Machine.execDec s
  | .loopBegin => Sys2Proof.Machine.execLoopBegin s
  | .loopEnd => Sys2Proof.Machine.execLoopEnd s
  | .out => Sys2Proof.Machine.execOut s
  | .inp => Sys2Proof.Machine.execInp s
  | .nop op => Sys2Proof.Machine.execNop op s

end Sys2Proof.Machine
end

