-- ==== Sys2Proof/Machine/Cycle.lean ====
section
/-! DEFINITION. The step cycle, fetch_decode_execute (spec/40_step_cycle.md R100 to R111). -/

namespace Sys2Proof.Machine

/-- Phase 1, the output flush (spec/40_step_cycle.md R102, R103). -/
def State.flush (s : State) : State := if s.pout ≠ 0#8 then (s.emit s.pout).stage 0#8 else s

/-- Phase 2, the termination check (spec/40_step_cycle.md R105); nothing is latched (R106). -/
def State.atEnd (s : State) : Bool := decide (s.plen ≤ s.ip)

/-- Phase 3, the fetch (spec/40_step_cycle.md R107). -/
def State.fetch (s : State) : Except FaultKind Byte := s.imemRead s.ip

/-- Phases 2 to 5 on the state the flush left (spec/40_step_cycle.md R105, R107 to R109). A halting step answers the flushed
state, whose `ip` is at or past `plen`. -/
def checkAndExecute (s : State) : Result :=
  if s.atEnd then .next s else orRaise s.fetch s fun op => exec (decodeByte op) s

/-- The whole step (spec/40_step_cycle.md R111). Phase 0: a recorded fault is reported again, with no effect (R101). -/
def cycle (s : State) : Result :=
  match s.fault with
  | some r => .fault r.asFault
  | none => checkAndExecute s.flush

end Sys2Proof.Machine
end

