-- ==== Sys2Proof/Machine/Step.lean ====
section
/-! DEFINITION. One `step()` of the machine, and how the host places the instruction a step fetches. -/

namespace Sys2Proof.Machine

/-- One step (spec/40_step_cycle.md R111). -/
def step (s : State) : Host.Outcome State Fault Refusal := cycle s

/-- `s` with the program installed whose instruction at `ip`, its last, is the table word `w`: it stands for the load from
outside by which every program comes into this machine (log entry 8). -/
def State.withFetchWord (s : State) (nbits w : Nat) : State := s.installAtIp (tableBytes nbits w)

end Sys2Proof.Machine
end

