-- ==== Sys2Proof/Machine/HostOps.lean ====
section
/-! DEFINITION. The host's operations beside `create` (spec/10_state.md R38): `load_program`, and `step` with its result. -/

namespace Sys2Proof.Machine

/-- What `load_program` returns (spec/10_state.md R38). -/
inductive LoadResult where
  | ok
  | refused
  deriving DecidableEq, Repr

/-- `load_program(P)` (spec/70_reset_and_hazards.md R232 to R236): refused with no effect when the machine has faulted (R235)
or `P` is longer than IMEM_CAP (R234). -/
def loadProgram (p : List Byte) (s : State) : LoadResult × State :=
  if s.fault = none ∧ p.length ≤ s.imemCap then
    (.ok, { s with imem := Memory.ofBytes p, ip := 0, dp := 0 })
  else (.refused, s)

/-- What `step` returns: CONTINUE, HALTED or FAULT(kind, fip) (spec/10_state.md R38; spec/40_step_cycle.md R110). -/
inductive StepResult where
  | cont
  | halted
  | fault (r : FaultRecord)
  deriving DecidableEq, Repr

/-- The result of a step that led from `s` to `t`: FAULT when the step recorded a fault (spec/60_exceptions.md R195), HALTED when
the termination check fired (spec/40_step_cycle.md R105), else CONTINUE (R109). -/
def resultOf (s t : State) : StepResult :=
  match t.fault with
  | some r => .fault r
  | none => if s.atEnd then .halted else .cont

/-- `step()` as the host sees it: its result and the state after; none only where the model refuses. -/
def stepCall (s : State) : Option (StepResult × State) :=
  match step s with
  | .next t => some (resultOf s t, t)
  | .fault f => some (.fault f.record, s)
  | .refused _ => none

/-- What the host may do to a machine that exists (spec/10_state.md R38; D23: nothing else). -/
inductive HostOp where
  | load (p : List Byte)
  | step
  deriving DecidableEq, Repr

/-- The state after one host operation. -/
def HostOp.apply (op : HostOp) (s : State) : State :=
  match op with
  | .load p => (loadProgram p s).2
  | .step => match stepCall s with
    | some (_, t) => t
    | none => s

/-- The state after a list of host operations, the first of the list first. -/
def applyAll (ops : List HostOp) (s : State) : State := ops.foldl (fun t op => op.apply t) s

/-- A run (spec/40_step_cycle.md R112): calls of `step` up to and including the first that does not return CONTINUE, at most
`fuel` of them; none when the fuel ends first (R253: a run need not end). -/
def run : (fuel : Nat) → State → Option (StepResult × State)
  | 0, _ => none
  | fuel + 1, s =>
    match stepCall s with
    | some (.cont, t) => run fuel t
    | other => other

end Sys2Proof.Machine
end

