-- ==== Sys2Proof/WellFormed.lean ====
section
/-! DEFINITION. Which instructions have an encoding of their own: every one, but for a no-op that carries an opcode byte. -/

namespace Sys2Proof

/-- The eight byte values that are opcodes (spec/30_encoding.md R83). -/
def opcodeBytes : List Byte :=
  [opRight, opLeft, opInc, opDec, opLoopBegin, opLoopEnd, opOut, opInp]

/-- A no-op is any byte value other than the eight opcodes (spec/45_nop.md R180); the other instructions carry nothing that
could be wrong. -/
def Instr.wellFormed : Instr → Bool
  | .right => true
  | .left => true
  | .inc => true
  | .dec => true
  | .loopBegin => true
  | .loopEnd => true
  | .out => true
  | .inp => true
  | .nop op => !opcodeBytes.contains op

end Sys2Proof
end

