-- ==== Sys2Proof/Safety.lean ====
section
/-! DEFINITION. The terms statements are written in: the machine's invariant, reachable states, counts of brackets. -/

namespace Sys2Proof.Machine

/-- What holds of every machine between two host operations (an invariant: log entry 6 names the clauses the spec writes as
register widths). -/
structure State.Inv (s : State) : Prop where
  /-- The parameters are as spec/00_scope.md R6 asks. -/
  config_valid : s.config.valid
  /-- Both memories are in the canonical form. -/
  imem_wf : s.imem.wf
  dmem_wf : s.dmem.wf
  /-- `plen <= IMEM_CAP` (spec/10_state.md R28). -/
  plen_le : s.plen ≤ s.imemCap
  /-- `ip <= plen` (spec/10_state.md R22). -/
  ip_le : s.ip ≤ s.plen
  /-- `dp` is a PTR_W-bit value (spec/10_state.md R24). -/
  dp_lt : s.dp < 2 ^ s.ptrW
  /-- A recorded fault names the instruction `ip` still stands at, and nothing is staged (spec/60_exceptions.md R196;
  spec/70_reset_and_hazards.md R244). -/
  fault_at_ip : ∀ r, s.fault = some r → r.fip = s.ip ∧ s.ip < s.plen ∧ s.pout = 0#8
  /-- No zero byte is ever emitted (spec/44_io.md R161). -/
  out_nonzero : ∀ b ∈ s.out, b ≠ 0#8

/-- The states a host can bring a machine to: creation with parameters the spec admits and any input stream, then any host
operations (spec/10_state.md R38). -/
inductive Reachable : State → Prop where
  | create (c : Config) (input : List InputAnswer) (h : c.valid) : Reachable (State.create c input)
  | op (o : HostOp) (s : State) (h : Reachable s) : Reachable (o.apply s)

/-- The byte the next flush will emit, if any (spec/10_state.md R26: 0 means nothing pending). -/
def State.pending (s : State) : List Byte := if s.pout = 0#8 then [] else [s.pout]

/-- `n` steps one after another, stopping at the first that answers no next state. -/
def stepN : (n : Nat) → State → Result
  | 0, s => .next s
  | n + 1, s =>
    match step s with
    | .next t => stepN n t
    | .fault f => .fault f
    | .refused r => .refused r

/-- How many of the `n` addresses from `lo` on hold the byte `c` in instruction memory (spec/43_loop.md R142: "the number of
… bytes in imem[..]"). -/
def Memory.countFrom (m : Memory) (c : Byte) (lo n : Nat) : Nat :=
  (List.range' lo n).countP (fun a => decide (m.get a = c))

/-- The position `q` closes what was opened: among the bytes `imem[p+1 .. q]` there are more `]` than `[` (spec/43_loop.md R142). -/
def Memory.closesAfter (m : Memory) (p q : Nat) : Prop :=
  m.countFrom opLoopBegin (p + 1) (q - p) < m.countFrom opLoopEnd (p + 1) (q - p)

/-- The position `q` opens what is closed at `p`: among the bytes `imem[q .. p-1]` there are more `[` than `]` (spec/43_loop.md
R145). -/
def Memory.opensBefore (m : Memory) (q p : Nat) : Prop :=
  m.countFrom opLoopEnd q (p - q) < m.countFrom opLoopBegin q (p - q)

/-- The step answered a next state with no fault recorded in it. -/
def SafeStep (s : State) : Prop := ∃ t, step s = .next t ∧ t.fault = none

end Sys2Proof.Machine
end

