-- ==== Sys2Proof/Certificates/Slice0/Obligations.lean ====
section
/-! DEFINITION. The statements about the machine, each from the rules of spec/ its docstring names. -/

open Sys2Proof Sys2Proof.Machine

/-! ### Encoding -/

/-- spec/30_encoding.md R84: the decoder's eight comparisons, and NOP for every other byte. -/
def Obligations.DecoderComparesWholeByte : Prop :=
  decodeByte 0x3E#8 = .right ∧ decodeByte 0x3C#8 = .left ∧ decodeByte 0x2B#8 = .inc ∧ decodeByte 0x2D#8 = .dec ∧
  decodeByte 0x5B#8 = .loopBegin ∧ decodeByte 0x5D#8 = .loopEnd ∧ decodeByte 0x2E#8 = .out ∧
  decodeByte 0x2C#8 = .inp ∧
  ∀ op : Byte, op ∉ [0x3E#8, 0x3C#8, 0x2B#8, 0x2D#8, 0x5B#8, 0x5D#8, 0x2E#8, 0x2C#8] →
    ∃ b, decodeByte op = .nop b

/-- The rows of spec/opcode_table.json, word by word; a NOP's byte is kept (log entry 7, the model's choice). -/
def Obligations.OpcodeTableRowsDecode : Prop :=
  decodeTableWord 8 62 = some .right ∧ decodeTableWord 8 60 = some .left ∧ decodeTableWord 8 43 = some .inc ∧
  decodeTableWord 8 45 = some .dec ∧ decodeTableWord 8 91 = some .loopBegin ∧ decodeTableWord 8 93 = some .loopEnd ∧
  decodeTableWord 8 46 = some .out ∧ decodeTableWord 8 44 = some .inp ∧ decodeTableWord 8 0 = some (.nop 0#8)

/-- Decoding and encoding agree both ways, for whole programs of any length: every list of well-formed instructions is read
back from its bytes, and every byte string is a program whose instructions are well-formed and give the string back
(spec/30_encoding.md R80, R84, R86, R89; that a NOP keeps its byte is log entry 7, the model's choice). -/
def Obligations.ProgramsDecodeAndEncodeAgree : Prop :=
  (∀ is : List Instr, (∀ i ∈ is, i.wellFormed = true) → decodeProgram (encodeProgram is) = is) ∧
  (∀ bs : List Byte, encodeProgram (decodeProgram bs) = bs ∧ ∀ i ∈ decodeProgram bs, i.wellFormed = true) ∧
  (∀ (bs : List Byte) (k : Nat) (op : Byte), bs[k]? = some op → (decodeProgram bs)[k]? = some (decodeByte op))

/-! ### The bounded memory -/

/-- spec/20_memory.md R51: a fresh memory has exactly `n` bytes and reads 0 at each; with no byte, every access is a fault. -/
def Obligations.FreshMemoryReadsZero : Prop :=
  ∀ n a : Nat, (Memory.create n).size = n ∧ (a < n → (Memory.create n).read a = .ok 0#8) ∧
    (n ≤ a → (Memory.create n).read a = .error .outOfBounds) ∧
    ∀ v : Byte, (Memory.create 0).read a = .error .outOfBounds ∧ (Memory.create 0).write a v = .error .outOfBounds

/-- spec/20_memory.md R53, R54, R55, R58: the bounds check of read and write, the stored byte read back, every other byte as
before (R55's second sentence and R58, which the spec marks as its own inferences), the length and the canonical form kept. -/
def Obligations.MemoryAccessContract : Prop :=
  ∀ (m : Memory) (a : Nat) (v : Byte), m.wf →
    (m.size ≤ a → m.read a = .error .outOfBounds ∧ m.write a v = .error .outOfBounds) ∧
    (a < m.size → m.read a = .ok (m.get a) ∧
      ∃ m', m.write a v = .ok m' ∧ m'.size = m.size ∧ m'.wf ∧ m'.read a = .ok v ∧
        ∀ b, b ≠ a → m'.read b = m.read b)

/-- Two memories of one length that read alike at every address are the same data (spec/20_memory.md R50: the length and the
bytes are the whole state). -/
def Obligations.MemoryIsItsReads : Prop :=
  ∀ m m' : Memory, m.wf → m'.wf → m.size = m'.size → (∀ a, m.read a = m'.read a) → m = m'

/-! ### Pointer instructions -/

/-- spec/41_pointer.md R120; the wrap is modulo the width PTR_W the spec itself adds (D2). The equation of the whole state says that no flag, no memory and no fault is involved. -/
def Obligations.RightMovesDataPointerUp : Prop :=
  decodeByte 0x3E#8 = .right ∧
  ∀ s : State, s.dp < 2 ^ s.ptrW →
    exec .right s = .next { s with dp := if s.dp + 1 = 2 ^ s.ptrW then 0 else s.dp + 1, ip := s.ip + 1 }

/-- spec/41_pointer.md R121; the wrap as for `>` (D2). -/
def Obligations.LeftMovesDataPointerDown : Prop :=
  decodeByte 0x3C#8 = .left ∧
  ∀ s : State, 0 < s.ptrW → s.dp < 2 ^ s.ptrW →
    exec .left s = .next { s with dp := if s.dp = 0 then 2 ^ s.ptrW - 1 else s.dp - 1, ip := s.ip + 1 }

/-- spec/10_state.md R25: a pointer held as an unbounded integer `z` agrees with the register modulo `2^PTR_W` as long as `z`
stays in the window the rule names: it is in range exactly when the register is, and one move keeps them in step. The spec marks
this as its own inference from its decision D2. -/
def Obligations.UnboundedPointerAgreesInWindow : Prop :=
  ∀ (s : State) (z : Int), s.config.valid →
    (s.dmemSize : Int) - 2 ^ s.ptrW ≤ z → z ≤ 2 ^ s.ptrW - 1 → (s.dp : Int) = z % 2 ^ s.ptrW →
    (s.dp < s.dmemSize ↔ 0 ≤ z ∧ z < s.dmemSize) ∧
    (∃ t, exec .right s = .next t ∧ (t.dp : Int) = (z + 1) % 2 ^ s.ptrW) ∧
    (∃ t, exec .left s = .next t ∧ (t.dp : Int) = (z - 1) % 2 ^ s.ptrW)

/-! ### Cell arithmetic -/

/-- spec/42_cell_arith.md R130, R132: the cell's new value modulo 256, and OutOfBounds with nothing else changed. -/
def Obligations.IncrementAddsOneToCell : Prop :=
  decodeByte 0x2B#8 = .inc ∧
  ∀ s : State, s.dmem.wf →
    (s.dp < s.dmemSize → ∃ m : Memory, exec .inc s = .next { s with dmem := m, ip := s.ip + 1 } ∧
      m.size = s.dmem.size ∧ (m.get s.dp).toNat = ((s.dmem.get s.dp).toNat + 1) % 256 ∧
      ∀ a, a ≠ s.dp → m.get a = s.dmem.get a) ∧
    (s.dmemSize ≤ s.dp → exec .inc s = .next { s with fault := some { kind := .outOfBounds, fip := s.ip } })

/-- spec/42_cell_arith.md R131: as for `+`, with `(v - 1) mod 256`. -/
def Obligations.DecrementTakesOneFromCell : Prop :=
  decodeByte 0x2D#8 = .dec ∧
  ∀ s : State, s.dmem.wf →
    (s.dp < s.dmemSize → ∃ m : Memory, exec .dec s = .next { s with dmem := m, ip := s.ip + 1 } ∧
      m.size = s.dmem.size ∧ ((m.get s.dp).toNat : Int) = (((s.dmem.get s.dp).toNat : Int) - 1) % 256 ∧
      ∀ a, a ≠ s.dp → m.get a = s.dmem.get a) ∧
    (s.dmemSize ≤ s.dp → exec .dec s = .next { s with fault := some { kind := .outOfBounds, fip := s.ip } })

/-- spec/42_cell_arith.md R133 (a sentence the spec marks as its own inference): `n` executions of `+` leave `(v + n) mod 256`,
`n` of `-` leave `(v - n) mod 256`, and touch no other cell. -/
def Obligations.RepeatedArithmeticIsModulo256 : Prop :=
  ∀ (n : Nat) (s : State), s.Inv → s.fault = none → s.dp < s.dmemSize → s.ip + n ≤ s.plen →
    ((∀ k, k < n → s.imem.get (s.ip + k) = 0x2B#8) →
      ∃ t, stepN n s = .next t ∧ t.ip = s.ip + n ∧ t.dp = s.dp ∧ t.fault = none ∧
        (t.dmem.get s.dp).toNat = ((s.dmem.get s.dp).toNat + n) % 256 ∧
        ∀ a, a ≠ s.dp → t.dmem.get a = s.dmem.get a) ∧
    ((∀ k, k < n → s.imem.get (s.ip + k) = 0x2D#8) →
      ∃ t, stepN n s = .next t ∧ t.ip = s.ip + n ∧ t.dp = s.dp ∧ t.fault = none ∧
        ((t.dmem.get s.dp).toNat : Int) = (((s.dmem.get s.dp).toNat : Int) - n) % 256 ∧
        ∀ a, a ≠ s.dp → t.dmem.get a = s.dmem.get a)

/-! ### Loop instructions and the bracket matcher -/

/-- spec/43_loop.md R142, "Stated without the loop" (marked there as the spec's inference from its pseudocode): the result is `q + 1` for the least `q > p` at which more brackets have
closed than opened, and UnmatchedBracket exactly when there is no such `q` below `plen`. -/
def Obligations.ForwardScanFindsLeastClosing : Prop :=
  ∀ (m : Memory) (p : Nat),
    (∀ t, scanForward m p = .ok t ↔
      ∃ q, t = q + 1 ∧ p < q ∧ q < m.size ∧ m.closesAfter p q ∧ ∀ r, p < r → r < q → ¬m.closesAfter p r) ∧
    (scanForward m p = .error .unmatchedBracket ↔ ∀ q, p < q → q < m.size → ¬m.closesAfter p q)

/-- spec/43_loop.md R145, "Stated without the loop" (marked there as the spec's inference from its pseudocode): the result is the greatest `q < p` from which more brackets open than
close before `p`, and UnmatchedBracket exactly when there is none. -/
def Obligations.BackwardScanFindsGreatestOpening : Prop :=
  ∀ (m : Memory) (p : Nat),
    (∀ q, scanBackward m p = .ok q ↔
      q < p ∧ m.opensBefore q p ∧ ∀ r, q < r → r < p → ¬m.opensBefore r p) ∧
    (scanBackward m p = .error .unmatchedBracket ↔ ∀ q, q < p → ¬m.opensBefore q p)

/-- spec/43_loop.md R142 and R145: the two scans are inverse. If the forward scan from a `[` at `p` matches a `]` at `q`, then
`q` holds `]` and the backward scan from `q` matches `p`; and the other way round. R151 says it of balanced programs (marked
there as the spec's own inference); for every program it follows from the two scans of R142 and R145. -/
def Obligations.BracketScansAreInverse : Prop :=
  (∀ (m : Memory) (p q : Nat), m.get p = 0x5B#8 → scanForward m p = .ok (q + 1) →
    m.get q = 0x5D#8 ∧ scanBackward m q = .ok p) ∧
  (∀ (m : Memory) (p q : Nat), m.get q = 0x5D#8 → q < m.size → scanBackward m q = .ok p →
    m.get p = 0x5B#8 ∧ scanForward m p = .ok (q + 1))

/-- spec/43_loop.md R151 and spec/30_encoding.md R88: the scans depend on nothing but where the bytes 0x5B and 0x5D stand in
the program; every other byte is skipped. -/
def Obligations.ScansSeeOnlyBrackets : Prop :=
  ∀ (m m' : Memory) (p : Nat), m.size = m'.size →
    (∀ a, (m.get a = 0x5B#8 ↔ m'.get a = 0x5B#8) ∧ (m.get a = 0x5D#8 ↔ m'.get a = 0x5D#8)) →
    scanForward m p = scanForward m' p ∧ scanBackward m p = scanBackward m' p

/-- spec/43_loop.md R141: fall through, jump past the match, UnmatchedBracket, or OutOfBounds before any scan. -/
def Obligations.LoopBeginJumpsWhenCellIsZero : Prop :=
  decodeByte 0x5B#8 = .loopBegin ∧
  ∀ s : State,
    (s.dmemSize ≤ s.dp →
      exec .loopBegin s = .next { s with fault := some { kind := .outOfBounds, fip := s.ip } }) ∧
    (s.dp < s.dmemSize → s.dmem.get s.dp ≠ 0#8 → exec .loopBegin s = .next { s with ip := s.ip + 1 }) ∧
    (s.dp < s.dmemSize → s.dmem.get s.dp = 0#8 → ∀ t, scanForward s.imem s.ip = .ok t →
      exec .loopBegin s = .next { s with ip := t }) ∧
    (s.dp < s.dmemSize → s.dmem.get s.dp = 0#8 → scanForward s.imem s.ip = .error .unmatchedBracket →
      exec .loopBegin s = .next { s with fault := some { kind := .unmatchedBracket, fip := s.ip } })

/-- spec/43_loop.md R144: fall through, jump back to the `[`, UnmatchedBracket, or OutOfBounds before any scan. -/
def Obligations.LoopEndJumpsWhenCellIsNonzero : Prop :=
  decodeByte 0x5D#8 = .loopEnd ∧
  ∀ s : State,
    (s.dmemSize ≤ s.dp →
      exec .loopEnd s = .next { s with fault := some { kind := .outOfBounds, fip := s.ip } }) ∧
    (s.dp < s.dmemSize → s.dmem.get s.dp = 0#8 → exec .loopEnd s = .next { s with ip := s.ip + 1 }) ∧
    (s.dp < s.dmemSize → s.dmem.get s.dp ≠ 0#8 → ∀ t, scanBackward s.imem s.ip = .ok t →
      exec .loopEnd s = .next { s with ip := t }) ∧
    (s.dp < s.dmemSize → s.dmem.get s.dp ≠ 0#8 → scanBackward s.imem s.ip = .error .unmatchedBracket →
      exec .loopEnd s = .next { s with fault := some { kind := .unmatchedBracket, fip := s.ip } })

/-- spec/43_loop.md R142, R145, R147: each scan ends in a target inside the program or in UnmatchedBracket, so the cases of
the two statements before this one are all there are. -/
def Obligations.ScansEndInTargetOrUnmatched : Prop :=
  ∀ (m : Memory) (p : Nat),
    ((∃ t, scanForward m p = .ok t ∧ p + 2 ≤ t ∧ t ≤ m.size) ∨ scanForward m p = .error .unmatchedBracket) ∧
    ((∃ t, scanBackward m p = .ok t ∧ t < p) ∨ scanBackward m p = .error .unmatchedBracket)

/-! ### Input and output -/

/-- spec/44_io.md R160. -/
def Obligations.OutStagesCurrentCell : Prop :=
  decodeByte 0x2E#8 = .out ∧
  ∀ s : State,
    (s.dp < s.dmemSize → exec .out s = .next { s with pout := s.dmem.get s.dp, ip := s.ip + 1 }) ∧
    (s.dmemSize ≤ s.dp → exec .out s = .next { s with fault := some { kind := .outOfBounds, fip := s.ip } })

/-- spec/44_io.md R164: one request, which changes nothing but the stream; at EOF only `ip` moves, wherever `dp` is (R166); a
byte of any value is stored with `ip` unchanged (R165, R170); out of range the byte is consumed and lost (R167). `r` is the
stream's answer and `t` the machine after the request. -/
def Obligations.InpStoresByteOrAdvancesAtEof : Prop :=
  decodeByte 0x2C#8 = .inp ∧
  ∀ (s t : State) (r : InputAnswer), s.dmem.wf → s.inputRead = (r, t) →
    t = { s with input := t.input } ∧
    (r = .eof → exec .inp s = .next { t with ip := s.ip + 1 }) ∧
    (∀ b, r = .byte b → s.dp < s.dmemSize →
      ∃ m : Memory, exec .inp s = .next { t with dmem := m } ∧ m.size = s.dmem.size ∧
        m.get s.dp = b ∧ ∀ a, a ≠ s.dp → m.get a = s.dmem.get a) ∧
    (∀ b, r = .byte b → s.dmemSize ≤ s.dp →
      exec .inp s = .next { t with fault := some { kind := .outOfBounds, fip := s.ip } })

/-- How the model's input stream answers (spec/10_state.md R35, R36): the listed answers in order, one a request, so that a byte
may follow an EOF; and EOF, for ever, once none is listed (log entry 3, the model's choice). -/
def Obligations.InputStreamAnswersInOrder : Prop :=
  ∀ s : State, (s.input = [] → s.inputRead = (.eof, s)) ∧
    ∀ r rest, s.input = r :: rest → s.inputRead = (r, { s with input := rest })

/-- spec/44_io.md R168 (the spec's own inference from R164 and R165): with the answers `b_1 .. b_n` and then EOF ahead, a `,` takes `n + 1` steps, uses them all up, and
leaves the last byte, or the old one, in the cell. `tail` is what the stream answers after the bytes: it does not begin with a
byte, so its first answer is EOF. -/
def Obligations.InpSwallowsAllAvailableInput : Prop :=
  ∀ (bs : List Byte) (tail : List InputAnswer) (s : State), s.Inv → s.fault = none → s.ip < s.plen →
    s.imem.get s.ip = 0x2C#8 → s.dp < s.dmemSize → s.input = bs.map .byte ++ tail →
    (∀ b, tail.head? ≠ some (.byte b)) →
    ∃ t, stepN (bs.length + 1) s = .next t ∧ t.ip = s.ip + 1 ∧ t.dp = s.dp ∧ t.input = tail.tail ∧
      t.fault = none ∧ t.dmem.get s.dp = bs.getLast?.getD (s.dmem.get s.dp) ∧
      ∀ a, a ≠ s.dp → t.dmem.get a = s.dmem.get a

/-- spec/40_step_cycle.md R102, R103, R104 and spec/44_io.md R161, R162: what a step adds to the output stream is the byte
that was staged before it, if that is not 0, whatever else the step does; and what is staged after it is the cell of the `.` it
executed, else nothing. -/
def Obligations.OutputAppearsOneStepLate : Prop :=
  ∀ s t : State, step s = .next t →
    t.out = s.out ++ (if s.pout = 0#8 then [] else [s.pout]) ∧
    t.pout = if s.ip < s.plen ∧ s.imem.get s.ip = 0x2E#8 ∧ s.dp < s.dmemSize then s.dmem.get s.dp else 0#8

/-- spec/44_io.md R161 (the quirk the spec's decision D4 keeps) and spec/10_state.md R34: however many steps run, they only
append to the output stream, and no byte they append is 0. -/
def Obligations.ZeroByteIsNeverEmitted : Prop :=
  ∀ (n : Nat) (s t : State), stepN n s = .next t → ∃ emitted : List Byte, t.out = s.out ++ emitted ∧ 0#8 ∉ emitted

/-- spec/10_state.md R34: the core never reads the output stream back, so a step runs alike whatever was emitted before. -/
def Obligations.OutputIsNeverReadBack : Prop :=
  ∀ (s t : State) (o : List Byte), step s = .next t →
    ∃ emitted : List Byte, t.out = s.out ++ emitted ∧
      step { s with out := o } = .next { t with out := o ++ emitted }

/-- spec/10_state.md R35: a step asks the input stream at most once, and only a `,` asks. -/
def Obligations.OnlyInpAsksForInput : Prop :=
  ∀ s t : State, step s = .next t →
    t.input = if s.ip < s.plen ∧ s.imem.get s.ip = 0x2C#8 then s.input.tail else s.input

/-! ### NOP -/

/-- spec/45_nop.md R180: every byte value other than the eight opcodes only advances `ip`, wherever `dp` is. -/
def Obligations.OtherBytesOnlyAdvance : Prop :=
  (∀ (b : Byte) (s : State), exec (.nop b) s = .next { s with ip := s.ip + 1 }) ∧
  ∀ op : Byte, op ∉ [0x3E#8, 0x3C#8, 0x2B#8, 0x2D#8, 0x5B#8, 0x5D#8, 0x2E#8, 0x2C#8] →
    ∃ b, decodeByte op = .nop b

/-! ### The step cycle -/

/-- spec/40_step_cycle.md R107, R108, with the flush of R102 before: the step is the meaning of the instruction the byte at
`ip` decodes to, on the flushed state. Nothing else is added around it. -/
def Obligations.StepRunsDecodedInstruction : Prop :=
  ∀ (s : State) (i : Instr), s.fault = none → s.ip < s.plen → decode [s.imem.get s.ip] = .ok (i, []) →
    step s = exec i { s with out := s.out ++ (if s.pout = 0#8 then [] else [s.pout]), pout := 0#8 }

/-- spec/40_step_cycle.md R105: at or past the end of the program a step flushes, changes nothing else and returns HALTED. -/
def Obligations.StepHaltsAtProgramEnd : Prop :=
  ∀ s : State, s.fault = none → s.plen ≤ s.ip →
    step s = .next { s with out := s.out ++ (if s.pout = 0#8 then [] else [s.pout]), pout := 0#8 } ∧
    stepCall s =
      some (.halted, { s with out := s.out ++ (if s.pout = 0#8 then [] else [s.pout]), pout := 0#8 })

/-- spec/40_step_cycle.md R106 and spec/70_reset_and_hazards.md R242: halting is not latched, and a step after HALTED, and any
number of them, returns HALTED with no effect (the spec's decisions D13 and D19). -/
def Obligations.StepAfterHaltHasNoEffect : Prop :=
  ∀ (s t : State) (n : Nat), stepCall s = some (.halted, t) → stepN n t = .next t ∧ stepCall t = some (.halted, t)

/-- spec/40_step_cycle.md R101: with a fault recorded, `step()` changes nothing and returns FAULT with the recorded values (the spec's decision D5). -/
def Obligations.FaultedStepReturnsRecordedFault : Prop :=
  ∀ (s : State) (r : FaultRecord), s.fault = some r → stepCall s = some (.fault r, s)

/-- Where the model's step answers the outcome fault (log entry 4, the model's choice): exactly on a machine whose fault record
is set, and with the record's kind and `fip`. It never refuses. -/
def Obligations.StepStopsExactlyOnFaultedMachine : Prop :=
  ∀ s : State,
    (∀ p, s.fault = some { kind := .outOfBounds, fip := p } → step s = .fault (.outOfBounds p)) ∧
    (∀ p, s.fault = some { kind := .unmatchedBracket, fip := p } → step s = .fault (.unmatchedBracket p)) ∧
    (s.fault = none → ∃ t, step s = .next t)

/-- spec/40_step_cycle.md R110: `step()` always returns, with exactly one of three results: FAULT when a fault is recorded
after it, HALTED when none was recorded before it and `ip >= plen`, CONTINUE when it executed an opcode and none is recorded. -/
def Obligations.StepReturnsOneOfThreeResults : Prop :=
  ∀ s : State, ∃ res t, stepCall s = some (res, t) ∧
    (∀ r, res = .fault r ↔ t.fault = some r) ∧
    (res = .halted ↔ s.fault = none ∧ s.plen ≤ s.ip) ∧
    (res = .cont ↔ s.fault = none ∧ s.ip < s.plen ∧ t.fault = none)

/-- spec/40_step_cycle.md R112 and spec/70_reset_and_hazards.md R244: how a run ends. At HALTED `ip = plen`, nothing is staged
and no fault is recorded; at FAULT the record names the instruction `ip` stands at, and nothing is staged. -/
def Obligations.RunEndsFlushedAndAtItsEnd : Prop :=
  ∀ (fuel : Nat) (s t : State) (res : StepResult), s.Inv → run fuel s = some (res, t) →
    t.pout = 0#8 ∧ res ≠ .cont ∧
    (res = .halted → t.ip = t.plen ∧ t.fault = none) ∧
    (∀ r, res = .fault r → t.fault = some r ∧ r.fip = t.ip ∧ t.ip < t.plen)

/-! ### Faults -/

/-- spec/60_exceptions.md R191, R192, R200: in one step from a machine with no fault recorded, exactly which instruction
raises which fault, and when. -/
def Obligations.FaultsArisePerInstructionTable : Prop :=
  ∀ s : State, s.fault = none → ∃ t, step s = .next t ∧
    ((∃ fip, t.fault = some { kind := .outOfBounds, fip := fip }) ↔
      s.ip < s.plen ∧ s.dmemSize ≤ s.dp ∧
      (s.imem.get s.ip ∈ [0x2B#8, 0x2D#8, 0x5B#8, 0x5D#8, 0x2E#8] ∨
       (s.imem.get s.ip = 0x2C#8 ∧ ∃ b, s.input.head? = some (.byte b)))) ∧
    ((∃ fip, t.fault = some { kind := .unmatchedBracket, fip := fip }) ↔
      s.ip < s.plen ∧ s.dp < s.dmemSize ∧
      ((s.imem.get s.ip = 0x5B#8 ∧ s.dmem.get s.dp = 0#8 ∧
          scanForward s.imem s.ip = .error .unmatchedBracket) ∨
       (s.imem.get s.ip = 0x5D#8 ∧ s.dmem.get s.dp ≠ 0#8 ∧
          scanBackward s.imem s.ip = .error .unmatchedBracket)))

/-- spec/60_exceptions.md R195, R196, R197: a step that raises a fault records it with the `ip` of the instruction, and has
done nothing else but its flush and, for a `,`, taken the input byte (R196 is marked as the spec's inference, R197 rests on its
decisions D22 and D12). -/
def Obligations.FaultsArePrecise : Prop :=
  ∀ (s t : State) (r : FaultRecord), step s = .next t → t.fault = some r →
    stepCall s = some (.fault r, t) ∧ r.fip = s.ip ∧
    t = { s with
      fault := some r
      pout := 0#8
      out := s.out ++ (if s.pout = 0#8 then [] else [s.pout])
      input := t.input } ∧
    (t.input = s.input ∨ (s.imem.get s.ip = 0x2C#8 ∧ ∃ b, s.input = .byte b :: t.input))

/-- spec/60_exceptions.md R199: the fault is absorbing. Once recorded, no sequence of host operations changes the state, every
load is refused and every step returns the same FAULT (the spec's decision D5). -/
def Obligations.FaultIsAbsorbing : Prop :=
  ∀ (ops : List HostOp) (s : State) (r : FaultRecord), s.fault = some r →
    applyAll ops s = s ∧ (∀ p, loadProgram p (applyAll ops s) = (.refused, s)) ∧
    stepCall (applyAll ops s) = some (.fault r, s)

/-- spec/60_exceptions.md R194: the codes of the fault record (the spec's decision D6). -/
def Obligations.FaultRecordCodes : Prop :=
  ∀ (s : State) (p : Nat), (s.fault = none → s.faultCode = 0) ∧
    (s.fault = some { kind := .outOfBounds, fip := p } → s.faultCode = 1) ∧
    (s.fault = some { kind := .unmatchedBracket, fip := p } → s.faultCode = 2)

/-! ### Frames -/

/-- The frame of the instructions that store nothing (spec/10_state.md R20, the table; R24, R26): every byte of both memories
reads as before; `dp` changes only under `>` and `<`, `pout` only under `.`; the parameters, `plen` and the two streams never;
the fault record only by a raise, and then `ip`, `dp` and `pout` are unchanged too. -/
def Obligations.FrameOfNonStoringInstructions : Prop :=
  ∀ (i : Instr) (s t : State),
    (i = .right ∨ i = .left ∨ i = .loopBegin ∨ i = .loopEnd ∨ i = .out ∨ ∃ op, i = .nop op) →
    exec i s = .next t →
    (∀ a, t.dmem.read a = s.dmem.read a) ∧ (∀ a, t.imem.read a = s.imem.read a) ∧
    t.config = s.config ∧ t.plen = s.plen ∧ t.input = s.input ∧ t.out = s.out ∧
    (i ≠ .right → i ≠ .left → t.dp = s.dp) ∧ (i ≠ .out → t.pout = s.pout) ∧
    (t.fault = s.fault ∨
      (∃ k, t.fault = some { kind := k, fip := s.ip }) ∧ t.ip = s.ip ∧ t.dp = s.dp ∧ t.pout = s.pout)

/-- The frame of the instructions that store to data memory (spec/10_state.md R20, the table; spec/20_memory.md R55, R59): the
one byte stored is at the effective address `cellAddr`, every other byte of data memory and every byte of instruction memory
reads as before; `dp`, `pout`, `plen`, the parameters and the output never change, the input only under `,`; when a fault is
raised no byte at all changes. -/
def Obligations.FrameOfStoringInstructions : Prop :=
  ∀ (i : Instr) (s t : State), (i = .inc ∨ i = .dec ∨ i = .inp) → s.dmem.wf → exec i s = .next t →
    (∀ a, a ≠ s.cellAddr → t.dmem.read a = s.dmem.read a) ∧ (∀ a, t.imem.read a = s.imem.read a) ∧
    t.config = s.config ∧ t.plen = s.plen ∧ t.dp = s.dp ∧ t.pout = s.pout ∧ t.out = s.out ∧
    (i ≠ .inp → t.input = s.input) ∧
    (t.fault = s.fault ∨
      t.fault = some { kind := .outOfBounds, fip := s.ip } ∧ t.ip = s.ip ∧
        ∀ a, t.dmem.read a = s.dmem.read a)

/-- spec/20_memory.md R59: the only data an instruction can learn is the current cell. Two machines that differ in data memory
elsewhere do the same to every register, stream and memory, and leave the same byte in the cell. -/
def Obligations.OnlyCurrentCellIsUsed : Prop :=
  ∀ (i : Instr) (s : State) (m : Memory), s.dmem.wf → m.wf → m.size = s.dmem.size →
    m.get s.cellAddr = s.dmem.get s.cellAddr →
    ∃ t u, exec i s = .next t ∧ exec i { s with dmem := m } = .next u ∧
      { u with dmem := t.dmem } = t ∧ u.dmem.get s.cellAddr = t.dmem.get s.cellAddr

/-- spec/20_memory.md R68 and spec/00_scope.md R5: however many steps run, the program and the parameters stay as they are;
only the host's load replaces the program. -/
def Obligations.StepsNeverChangeProgramOrParameters : Prop :=
  ∀ (n : Nat) (s t : State), stepN n s = .next t → t.imem = s.imem ∧ t.config = s.config

/-! ### The machine's invariant -/

/-- Creation with parameters the spec admits, and the reset state, meet the invariant (the reset state's parameters are log
entry 1, the model's choice). -/
def Obligations.CreationMeetsInvariant : Prop :=
  (∀ (c : Config) (input : List InputAnswer), c.valid → (State.create c input).Inv) ∧ State.reset.Inv

/-- From every state that meets the invariant, a step that answers a next state keeps it (spec/10_state.md R22, R24, R28;
spec/60_exceptions.md R196; spec/44_io.md R161). -/
def Obligations.StepKeepsInvariant : Prop :=
  ∀ s t : State, s.Inv → step s = .next t → t.Inv

/-- A load keeps the invariant, and the parameters. -/
def Obligations.LoadKeepsInvariant : Prop :=
  ∀ (p : List Byte) (s : State), s.Inv → (loadProgram p s).2.Inv ∧ (loadProgram p s).2.config = s.config

/-- spec/10_state.md R22: `ip <= plen` in every state reachable from reset by `load_program` and `step`; so `ip + 1` never
exceeds `2^PTR_W - 1` while an instruction executes, and `ip` never wraps. The spec marks this as its own inference. -/
def Obligations.ReachableInstructionPointerStaysInProgram : Prop :=
  ∀ s : State, Reachable s →
    s.ip ≤ s.plen ∧ s.plen ≤ s.imemCap ∧ s.imemCap < 2 ^ s.ptrW ∧ (s.ip < s.plen → s.ip + 1 < 2 ^ s.ptrW)

/-! ### Reset and load -/

/-- spec/70_reset_and_hazards.md R230 and spec/10_state.md R40: every piece of state at creation (`ip`, `dp` and `pout` by the
spec's decision D7, `fault` by D5). The input stream is the environment's choice. -/
def Obligations.CreationValues : Prop :=
  ∀ (c : Config) (input : List InputAnswer),
    (State.create c input).config = c ∧ (State.create c input).plen = c.imemCap ∧
    (∀ a, a < c.imemCap → (State.create c input).imem.read a = .ok 0#8) ∧
    (State.create c input).dmemSize = c.dmemSize ∧
    (∀ a, a < c.dmemSize → (State.create c input).dmem.read a = .ok 0#8) ∧
    (State.create c input).ip = 0 ∧ (State.create c input).dp = 0 ∧ (State.create c input).pout = 0#8 ∧
    (State.create c input).fault = none ∧ (State.create c input).out = []

/-- spec/70_reset_and_hazards.md R232, R233 and spec/10_state.md R41: an accepted load installs the program byte for byte,
sets its length, zeroes the two pointers, and changes nothing else (that `pout` stays is the spec's decision D8). -/
def Obligations.LoadInstallsProgram : Prop :=
  ∀ (p : List Byte) (s : State), s.fault = none → p.length ≤ s.imemCap →
    ∃ m : Memory, loadProgram p s = (.ok, { s with imem := m, ip := 0, dp := 0 }) ∧ m.size = p.length ∧ m.wf ∧
      ∀ (k : Nat) (op : Byte), p[k]? = some op → m.read k = .ok op

/-- spec/70_reset_and_hazards.md R234, R235: a program longer than IMEM_CAP, or any on a faulted machine, is refused with no
change (the spec's decisions D9 and D5). -/
def Obligations.LoadRefusedWithoutEffect : Prop :=
  ∀ (p : List Byte) (s : State), s.imemCap < p.length ∨ s.fault ≠ none → loadProgram p s = (.refused, s)

/-- spec/70_reset_and_hazards.md R237 (the spec's own inference): stepping a machine on which nothing was ever loaded. The first IMEM_CAP steps return
CONTINUE and change nothing but `ip`; the next returns HALTED. -/
def Obligations.UnloadedMachineRunsNoOpsThenHalts : Prop :=
  ∀ (c : Config) (input : List InputAnswer) (fresh : State) (k : Nat),
    fresh = State.create c input → k ≤ c.imemCap →
    stepN k fresh = .next { fresh with ip := k } ∧
    (k < c.imemCap → stepCall { fresh with ip := k } = some (.cont, { fresh with ip := k + 1 })) ∧
    stepCall { fresh with ip := c.imemCap } = some (.halted, { fresh with ip := c.imemCap })
end

