-- ==== Sys2Proof/Laws/State.lean ====
section
/-! SUPPORT. What each update of the state does to each field, so that no proof unfolds a record update. -/

namespace Sys2Proof.Machine

variable (s : State)

@[simp] theorem State.plen_eq_size : s.plen = s.imem.size := rfl
@[simp] theorem State.dmemSize_eq_size : s.dmemSize = s.dmem.size := rfl
@[simp] theorem State.cellAddr_eq_dp : s.cellAddr = s.dp := rfl
@[simp] theorem State.config_imemCap : s.config.imemCap = s.imemCap := rfl
@[simp] theorem State.config_dmemSize : s.config.dmemSize = s.dmem.size := rfl
@[simp] theorem State.config_ptrW : s.config.ptrW = s.ptrW := rfl

/-! ### emit -/

@[simp] theorem State.emit_imemCap (b : Byte) : (s.emit b).imemCap = s.imemCap := rfl
@[simp] theorem State.emit_ptrW (b : Byte) : (s.emit b).ptrW = s.ptrW := rfl
@[simp] theorem State.emit_imem (b : Byte) : (s.emit b).imem = s.imem := rfl
@[simp] theorem State.emit_dmem (b : Byte) : (s.emit b).dmem = s.dmem := rfl
@[simp] theorem State.emit_ip (b : Byte) : (s.emit b).ip = s.ip := rfl
@[simp] theorem State.emit_dp (b : Byte) : (s.emit b).dp = s.dp := rfl
@[simp] theorem State.emit_pout (b : Byte) : (s.emit b).pout = s.pout := rfl
@[simp] theorem State.emit_fault (b : Byte) : (s.emit b).fault = s.fault := rfl
@[simp] theorem State.emit_input (b : Byte) : (s.emit b).input = s.input := rfl
@[simp] theorem State.emit_out (b : Byte) : (s.emit b).out = s.out ++ [b] := rfl

/-! ### advance -/

@[simp] theorem State.advance_imemCap : s.advance.imemCap = s.imemCap := rfl
@[simp] theorem State.advance_ptrW : s.advance.ptrW = s.ptrW := rfl
@[simp] theorem State.advance_imem : s.advance.imem = s.imem := rfl
@[simp] theorem State.advance_dmem : s.advance.dmem = s.dmem := rfl
@[simp] theorem State.advance_ip : s.advance.ip = s.ip + 1 := rfl
@[simp] theorem State.advance_dp : s.advance.dp = s.dp := rfl
@[simp] theorem State.advance_pout : s.advance.pout = s.pout := rfl
@[simp] theorem State.advance_fault : s.advance.fault = s.fault := rfl
@[simp] theorem State.advance_input : s.advance.input = s.input := rfl
@[simp] theorem State.advance_out : s.advance.out = s.out := rfl

/-! ### jump -/

@[simp] theorem State.jump_imemCap (v : Nat) : (s.jump v).imemCap = s.imemCap := rfl
@[simp] theorem State.jump_ptrW (v : Nat) : (s.jump v).ptrW = s.ptrW := rfl
@[simp] theorem State.jump_imem (v : Nat) : (s.jump v).imem = s.imem := rfl
@[simp] theorem State.jump_dmem (v : Nat) : (s.jump v).dmem = s.dmem := rfl
@[simp] theorem State.jump_ip (v : Nat) : (s.jump v).ip = v := rfl
@[simp] theorem State.jump_dp (v : Nat) : (s.jump v).dp = s.dp := rfl
@[simp] theorem State.jump_pout (v : Nat) : (s.jump v).pout = s.pout := rfl
@[simp] theorem State.jump_fault (v : Nat) : (s.jump v).fault = s.fault := rfl
@[simp] theorem State.jump_input (v : Nat) : (s.jump v).input = s.input := rfl
@[simp] theorem State.jump_out (v : Nat) : (s.jump v).out = s.out := rfl

/-! ### pointAt -/

@[simp] theorem State.pointAt_imemCap (v : Nat) : (s.pointAt v).imemCap = s.imemCap := rfl
@[simp] theorem State.pointAt_ptrW (v : Nat) : (s.pointAt v).ptrW = s.ptrW := rfl
@[simp] theorem State.pointAt_imem (v : Nat) : (s.pointAt v).imem = s.imem := rfl
@[simp] theorem State.pointAt_dmem (v : Nat) : (s.pointAt v).dmem = s.dmem := rfl
@[simp] theorem State.pointAt_ip (v : Nat) : (s.pointAt v).ip = s.ip := rfl
@[simp] theorem State.pointAt_dp (v : Nat) : (s.pointAt v).dp = v := rfl
@[simp] theorem State.pointAt_pout (v : Nat) : (s.pointAt v).pout = s.pout := rfl
@[simp] theorem State.pointAt_fault (v : Nat) : (s.pointAt v).fault = s.fault := rfl
@[simp] theorem State.pointAt_input (v : Nat) : (s.pointAt v).input = s.input := rfl
@[simp] theorem State.pointAt_out (v : Nat) : (s.pointAt v).out = s.out := rfl

/-! ### stage -/

@[simp] theorem State.stage_imemCap (v : Byte) : (s.stage v).imemCap = s.imemCap := rfl
@[simp] theorem State.stage_ptrW (v : Byte) : (s.stage v).ptrW = s.ptrW := rfl
@[simp] theorem State.stage_imem (v : Byte) : (s.stage v).imem = s.imem := rfl
@[simp] theorem State.stage_dmem (v : Byte) : (s.stage v).dmem = s.dmem := rfl
@[simp] theorem State.stage_ip (v : Byte) : (s.stage v).ip = s.ip := rfl
@[simp] theorem State.stage_dp (v : Byte) : (s.stage v).dp = s.dp := rfl
@[simp] theorem State.stage_pout (v : Byte) : (s.stage v).pout = v := rfl
@[simp] theorem State.stage_fault (v : Byte) : (s.stage v).fault = s.fault := rfl
@[simp] theorem State.stage_input (v : Byte) : (s.stage v).input = s.input := rfl
@[simp] theorem State.stage_out (v : Byte) : (s.stage v).out = s.out := rfl

/-! ### recordFault -/

@[simp] theorem State.recordFault_imemCap (k : FaultKind) : (s.recordFault k).imemCap = s.imemCap := rfl
@[simp] theorem State.recordFault_ptrW (k : FaultKind) : (s.recordFault k).ptrW = s.ptrW := rfl
@[simp] theorem State.recordFault_imem (k : FaultKind) : (s.recordFault k).imem = s.imem := rfl
@[simp] theorem State.recordFault_dmem (k : FaultKind) : (s.recordFault k).dmem = s.dmem := rfl
@[simp] theorem State.recordFault_ip (k : FaultKind) : (s.recordFault k).ip = s.ip := rfl
@[simp] theorem State.recordFault_dp (k : FaultKind) : (s.recordFault k).dp = s.dp := rfl
@[simp] theorem State.recordFault_pout (k : FaultKind) : (s.recordFault k).pout = s.pout := rfl
@[simp] theorem State.recordFault_fault (k : FaultKind) : (s.recordFault k).fault = some { kind := k, fip := s.ip } := rfl
@[simp] theorem State.recordFault_input (k : FaultKind) : (s.recordFault k).input = s.input := rfl
@[simp] theorem State.recordFault_out (k : FaultKind) : (s.recordFault k).out = s.out := rfl

/-! ### The flush -/

@[simp] theorem State.flush_imemCap : s.flush.imemCap = s.imemCap := by
  unfold State.flush; split <;> rfl

@[simp] theorem State.flush_ptrW : s.flush.ptrW = s.ptrW := by
  unfold State.flush; split <;> rfl

@[simp] theorem State.flush_imem : s.flush.imem = s.imem := by
  unfold State.flush; split <;> rfl

@[simp] theorem State.flush_dmem : s.flush.dmem = s.dmem := by
  unfold State.flush; split <;> rfl

@[simp] theorem State.flush_ip : s.flush.ip = s.ip := by
  unfold State.flush; split <;> rfl

@[simp] theorem State.flush_dp : s.flush.dp = s.dp := by
  unfold State.flush; split <;> rfl

@[simp] theorem State.flush_fault : s.flush.fault = s.fault := by
  unfold State.flush; split <;> rfl

@[simp] theorem State.flush_input : s.flush.input = s.input := by
  unfold State.flush; split <;> rfl

/-- A machine with nothing staged is left as it is. -/
theorem State.flush_of_pout_zero (h : s.pout = 0#8) : s.flush = s := if_neg (not_not.mpr h)

/-- A staged byte is emitted. -/
theorem State.flush_of_pout_ne (h : s.pout ≠ 0#8) : s.flush = (s.emit s.pout).stage 0#8 := if_pos h

theorem State.pending_of_pout_zero (h : s.pout = 0#8) : s.pending = [] := if_pos h

theorem State.pending_of_pout_ne (h : s.pout ≠ 0#8) : s.pending = [s.pout] := if_neg h

@[simp] theorem State.flush_pout : s.flush.pout = 0#8 := by
  by_cases h : s.pout = 0#8
  · rw [s.flush_of_pout_zero h, h]
  · rw [s.flush_of_pout_ne h, State.stage_pout]

@[simp] theorem State.flush_out : s.flush.out = s.out ++ s.pending := by
  by_cases h : s.pout = 0#8
  · rw [s.flush_of_pout_zero h, s.pending_of_pout_zero h, List.append_nil]
  · rw [s.flush_of_pout_ne h, s.pending_of_pout_ne h, State.stage_out, State.emit_out]

/-- The flush as one record update. -/
theorem State.flush_eq : s.flush = { s with out := s.out ++ s.pending, pout := 0#8 } := by
  by_cases h : s.pout = 0#8
  · rw [s.flush_of_pout_zero h, s.pending_of_pout_zero h, List.append_nil, ← h]
  · rw [s.flush_of_pout_ne h, s.pending_of_pout_ne h]; rfl

/-- No zero byte is ever pending. -/
theorem State.pending_ne_zero {b : Byte} (h : b ∈ s.pending) : b ≠ 0#8 := by
  by_cases hp : s.pout = 0#8
  · rw [s.pending_of_pout_zero hp] at h; cases h
  · rw [s.pending_of_pout_ne hp] at h; rwa [List.mem_singleton.mp h]

theorem State.atEnd_iff : s.atEnd = true ↔ s.imem.size ≤ s.ip := decide_eq_true_iff

end Sys2Proof.Machine
end

