-- ==== Sys2Proof/Laws/Memory.lean ====
section
/-! SUPPORT. The bounded memory: reading after writing, and that every operation keeps the canonical form. -/

namespace Sys2Proof.Machine

/-- Strictly rising addresses, the part of the canonical form that lookups rest on. -/
abbrev Rising (cs : List Host.Cell) : Prop := cs.Pairwise (fun c d => c.1 < d.1)

theorem cellsGet_cons (y : Nat) (u : Byte) (cs : List Host.Cell) (b : Nat) :
    cellsGet ((y, u) :: cs) b = if b = y then u else cellsGet cs b := by
  by_cases h : b = y
  · simp [cellsGet, h]
  · simp [cellsGet, h, show y ≠ b from fun e => h e.symm]

theorem cellsGet_eq_zero_of_not_listed (cs : List Host.Cell) (a : Nat) (h : ∀ c ∈ cs, c.1 ≠ a) :
    cellsGet cs a = 0#8 := by
  induction cs with
  | nil => rfl
  | cons c rest ih =>
    obtain ⟨b, v⟩ := c
    have hb : b ≠ a := h (b, v) (by simp)
    simp only [cellsGet, hb, if_false]
    exact ih fun c hc => h c (by simp [hc])

/-- What is listed after a store was listed before, or is the stored byte, which is then not 0. -/
theorem mem_cellsSet {cs : List Host.Cell} {a : Nat} {v : Byte} {c : Host.Cell} (h : c ∈ cellsSet cs a v) :
    c ∈ cs ∨ (c = (a, v) ∧ v ≠ 0#8) := by
  induction cs with
  | nil => by_cases hv : v = 0#8 <;> simp_all [cellsSet]
  | cons d rest ih =>
    obtain ⟨b, w⟩ := d
    simp only [cellsSet] at h
    split_ifs at h <;> simp_all <;> tauto

theorem rising_cellsSet {cs : List Host.Cell} (h : Rising cs) (a : Nat) (v : Byte) : Rising (cellsSet cs a v) := by
  induction cs with
  | nil => by_cases hv : v = 0#8 <;> simp [cellsSet, hv, Rising]
  | cons d rest ih =>
    obtain ⟨b, w⟩ := d
    obtain ⟨hhead, htail⟩ := List.pairwise_cons.mp h
    simp only [cellsSet]
    split_ifs with hlt hv heq hv
    · exact h
    · refine List.pairwise_cons.mpr ⟨fun c hc => ?_, h⟩
      rcases List.mem_cons.mp hc with rfl | hc
      · exact hlt
      · exact lt_trans hlt (hhead c hc)
    · exact htail
    · subst heq; exact List.pairwise_cons.mpr ⟨hhead, htail⟩
    · refine List.pairwise_cons.mpr ⟨fun c hc => ?_, ih htail⟩
      rcases mem_cellsSet hc with hc | ⟨rfl, _⟩
      · exact hhead c hc
      · simp only; omega

/-- Read after write on the canonical list. -/
theorem cellsGet_cellsSet {cs : List Host.Cell} (h : Rising cs) (a : Nat) (v : Byte) (b : Nat) :
    cellsGet (cellsSet cs a v) b = if b = a then v else cellsGet cs b := by
  induction cs with
  | nil =>
    by_cases hb : b = a
    · by_cases hv : v = 0#8 <;> simp [cellsSet, cellsGet, hv, hb]
    · have hb' : ¬a = b := fun e => hb e.symm
      by_cases hv : v = 0#8 <;> simp [cellsSet, cellsGet, hv, hb, hb']
  | cons d rest ih =>
    obtain ⟨x, w⟩ := d
    obtain ⟨hhead, htail⟩ := List.pairwise_cons.mp h
    have hrest : ∀ y, y ≤ x → cellsGet rest y = 0#8 := fun y hy =>
      cellsGet_eq_zero_of_not_listed rest y fun c hc => by have := hhead c hc; simp only at this; omega
    rcases Nat.lt_trichotomy a x with hlt | rfl | hgt
    · by_cases hv : v = 0#8
      · by_cases hb : b = a
        · subst hb; simp [cellsSet, cellsGet_cons, hlt, hv, hrest b (by omega), show b ≠ x by omega]
        · simp [cellsSet, hlt, hv, hb]
      · simp [cellsSet, hlt, hv, cellsGet_cons]
    · by_cases hv : v = 0#8
      · by_cases hb : b = a
        · subst hb; simp [cellsSet, hv, hrest b (le_refl _)]
        · simp [cellsSet, hv, hb, cellsGet_cons]
      · by_cases hb : b = a <;> simp [cellsSet, hv, hb, cellsGet_cons]
    · simp only [cellsSet, show ¬a < x by omega, show ¬a = x by omega, if_false, cellsGet_cons, ih htail]
      by_cases hb : b = x
      · subst hb; simp [show b ≠ a by omega]
      · simp [hb]

/-! ### Memory -/

@[simp] theorem Memory.put_size (m : Memory) (a : Nat) (v : Byte) : (m.put a v).size = m.size := rfl
@[simp] theorem Memory.create_size (n : Nat) : (Memory.create n).size = n := rfl
@[simp] theorem Memory.create_get (n a : Nat) : (Memory.create n).get a = 0#8 := rfl

theorem Memory.create_wf (n : Nat) : (Memory.create n).wf := by simp [Memory.create, Memory.wf]

/-- A store changes the byte at its own address and no other. -/
theorem Memory.get_put {m : Memory} (h : m.wf) (a : Nat) (v : Byte) (b : Nat) :
    (m.put a v).get b = if b = a then v else m.get b :=
  cellsGet_cellsSet h.1 a v b

/-- A store inside the memory keeps the canonical form. -/
theorem Memory.put_wf {m : Memory} (h : m.wf) {a : Nat} (ha : a < m.size) (v : Byte) : (m.put a v).wf := by
  refine ⟨rising_cellsSet h.1 a v, fun c hc => ?_⟩
  rcases mem_cellsSet hc with hc | ⟨rfl, hv⟩
  · exact h.2 c hc
  · exact ⟨ha, hv⟩

/-- Nothing is listed at or above the size. -/
theorem Memory.get_of_size_le {m : Memory} (h : m.wf) {a : Nat} (ha : m.size ≤ a) : m.get a = 0#8 :=
  cellsGet_eq_zero_of_not_listed m.cells a fun c hc => by have := (h.2 c hc).1; omega

theorem Memory.read_of_lt {m : Memory} {a : Nat} (h : a < m.size) : m.read a = .ok (m.get a) := by
  simp [Memory.read, Nat.not_le.mpr h]

theorem Memory.read_of_le {m : Memory} {a : Nat} (h : m.size ≤ a) : m.read a = .error .outOfBounds := by
  simp [Memory.read, h]

theorem Memory.write_of_lt {m : Memory} {a : Nat} (h : a < m.size) (v : Byte) : m.write a v = .ok (m.put a v) := by
  simp [Memory.write, Nat.not_le.mpr h]

theorem Memory.write_of_le {m : Memory} {a : Nat} (h : m.size ≤ a) (v : Byte) :
    m.write a v = .error .outOfBounds := by
  simp [Memory.write, h]

/-- The controller keeps the canonical form: a write that answers a memory answers a well-formed one of the same length. -/
theorem Memory.write_wf {m m' : Memory} (h : m.wf) {a : Nat} {v : Byte} (hw : m.write a v = .ok m') :
    m'.wf ∧ m'.size = m.size := by
  rcases Nat.lt_or_ge a m.size with ha | ha
  · rw [Memory.write_of_lt ha] at hw; cases hw; exact ⟨Memory.put_wf h ha v, rfl⟩
  · rw [Memory.write_of_le ha] at hw; cases hw

/-! ### Installing a program -/

/-- A well-formed memory stays so when it only grows. -/
theorem Memory.wf_of_size_le {m : Memory} (h : m.wf) {n : Nat} (hn : m.size ≤ n) :
    Memory.wf { m with size := n } :=
  ⟨h.1, fun c hc => ⟨lt_of_lt_of_le (h.2 c hc).1 hn, (h.2 c hc).2⟩⟩

/-- One byte of an overlay is a store into the grown memory. -/
theorem Memory.overlay_cons (m : Memory) (a : Nat) (b : Byte) (bs : List Byte) :
    m.overlay a (b :: bs) = (Memory.put { m with size := max m.size (a + 1) } a b).overlay (a + 1) bs := rfl

theorem Memory.overlay_wf {m : Memory} (h : m.wf) (a : Nat) (bs : List Byte) : (m.overlay a bs).wf := by
  induction bs generalizing m a with
  | nil => exact h
  | cons b bs ih =>
    rw [Memory.overlay_cons]
    exact ih (Memory.put_wf (Memory.wf_of_size_le h (le_max_left _ _)) (by simp) b) _

theorem Memory.overlay_size (m : Memory) (a : Nat) (bs : List Byte) (h : a ≤ m.size) :
    (m.overlay a bs).size = max m.size (a + bs.length) := by
  induction bs generalizing m a with
  | nil => simp [Memory.overlay, h]
  | cons b bs ih =>
    rw [Memory.overlay_cons, ih _ _ (by simp)]
    simp only [Memory.put_size, List.length_cons]; omega

/-- What an overlaid memory holds: the bytes from `a` on, and what was there before elsewhere. -/
theorem Memory.overlay_get {m : Memory} (h : m.wf) (a : Nat) (bs : List Byte) (x : Nat) :
    (m.overlay a bs).get x = if a ≤ x ∧ x < a + bs.length then bs.getD (x - a) 0#8 else m.get x := by
  induction bs generalizing m a with
  | nil => rw [if_neg (by simp only [List.length_nil]; omega)]; rfl
  | cons b bs ih =>
    have hg := Memory.wf_of_size_le h (le_max_left m.size (a + 1))
    rw [Memory.overlay_cons, ih (Memory.put_wf hg (by simp) b), Memory.get_put hg]
    rcases Nat.lt_trichotomy x a with hx | rfl | hx
    · rw [if_neg (by omega), if_neg (by omega), if_neg (by omega)]; rfl
    · simp
    · obtain ⟨k, rfl⟩ : ∃ k, x = a + 1 + k := ⟨x - (a + 1), by omega⟩
      have e : a + 1 + k - a = k + 1 := by omega
      by_cases hk : k < bs.length
      · rw [if_pos (by omega), if_pos (by simp only [List.length_cons]; omega), e]; simp
      · rw [if_neg (by omega), if_neg (by omega), if_neg (by simp only [List.length_cons]; omega)]; rfl

theorem Memory.ofBytes_wf (bs : List Byte) : (Memory.ofBytes bs).wf :=
  Memory.overlay_wf (Memory.create_wf 0) 0 bs

@[simp] theorem Memory.ofBytes_size (bs : List Byte) : (Memory.ofBytes bs).size = bs.length := by
  rw [Memory.ofBytes, Memory.overlay_size _ _ _ (Nat.zero_le _)]; simp

theorem Memory.takeBelow_wf {m : Memory} (h : m.wf) (n : Nat) : (m.takeBelow n).wf := by
  refine ⟨List.Pairwise.filter _ h.1, fun c hc => ?_⟩
  obtain ⟨hm, hn⟩ := List.mem_filter.mp hc
  exact ⟨of_decide_eq_true hn, (h.2 c hm).2⟩

end Sys2Proof.Machine
end

