-- ==== Sys2Proof/Laws/Ops.lean ====
section
/-! SUPPORT. The shared operations of the meanings: what each can do, said once. -/

namespace Sys2Proof.Machine

/-! ### Pointer arithmetic -/

theorem addP_lt (w : Nat) (a b : Nat) : addP w a b < 2 ^ w := Nat.mod_lt _ (by positivity)

theorem subP_lt (w : Nat) (a b : Nat) : subP w a b < 2 ^ w := Nat.mod_lt _ (by positivity)

theorem addP_one (w : Nat) {a : Nat} (h : a < 2 ^ w) : addP w a 1 = if a + 1 = 2 ^ w then 0 else a + 1 := by
  unfold addP
  split_ifs with e
  · rw [e, Nat.mod_self]
  · exact Nat.mod_eq_of_lt (by omega)

theorem subP_one (w : Nat) (hw : 0 < w) {a : Nat} (h : a < 2 ^ w) :
    subP w a 1 = if a = 0 then 2 ^ w - 1 else a - 1 := by
  have h1 : 1 < 2 ^ w := Nat.one_lt_two_pow (by omega)
  unfold subP
  rw [Nat.mod_eq_of_lt h1]
  split_ifs with e
  · subst e; rw [Nat.zero_add, Nat.mod_eq_of_lt (by omega)]
  · rw [show a + (2 ^ w - 1) = (a - 1) + 2 ^ w by omega, Nat.add_mod_right, Nat.mod_eq_of_lt (by omega)]

/-! ### Raising -/

@[simp] theorem orRaise_ok {α : Type} (v : α) (s : State) (k : α → Result) : orRaise (.ok v) s k = k v := rfl

@[simp] theorem orRaise_error {α : Type} (f : FaultKind) (s : State) (k : α → Result) :
    orRaise (.error f) s k = .next (s.recordFault f) := rfl

/-- Everything `orRaise` can do when it answers a next state. -/
theorem orRaise_cases {α : Type} {r : Except FaultKind α} {s t : State} {k : α → Result}
    (h : orRaise r s k = .next t) :
    (∃ v, r = .ok v ∧ k v = .next t) ∨ (∃ f, r = .error f ∧ t = s.recordFault f) := by
  cases r with
  | ok v => exact .inl ⟨v, rfl, h⟩
  | error f => exact .inr ⟨f, rfl, (Host.Outcome.next.inj h).symm⟩

/-! ### Memory primitives of the state -/

theorem State.memRead_of_lt {s : State} {a : Nat} (h : a < s.dmem.size) : s.memRead a = .ok (s.dmem.get a) :=
  Memory.read_of_lt h

theorem State.memRead_of_le {s : State} {a : Nat} (h : s.dmem.size ≤ a) : s.memRead a = .error .outOfBounds :=
  Memory.read_of_le h

theorem State.memWrite_of_lt {s : State} {a : Nat} (h : a < s.dmem.size) (v : Byte) :
    s.memWrite a v = .ok { s with dmem := s.dmem.put a v } := by
  rw [State.memWrite, Memory.write_of_lt h]

theorem State.memWrite_of_le {s : State} {a : Nat} (h : s.dmem.size ≤ a) (v : Byte) :
    s.memWrite a v = .error .outOfBounds := by
  rw [State.memWrite, Memory.write_of_le h]

theorem State.fetch_of_lt {s : State} (h : s.ip < s.imem.size) : s.fetch = .ok (s.imem.get s.ip) :=
  Memory.read_of_lt h

theorem State.inputRead_nil {s : State} (h : s.input = []) : s.inputRead = (.eof, s) := by
  simp [State.inputRead, h]

theorem State.inputRead_cons {s : State} {r : InputAnswer} {rest : List InputAnswer} (h : s.input = r :: rest) :
    s.inputRead = (r, { s with input := rest }) := by
  simp [State.inputRead, h]

/-- Everything a request to the input stream can do: at most one answer is used up, and nothing else changes. -/
theorem State.inputRead_cases (s : State) :
    (s.input = [] ∧ s.inputRead = (.eof, s)) ∨
    (∃ r rest, s.input = r :: rest ∧ s.inputRead = (r, { s with input := rest })) := by
  cases h : s.input with
  | nil => exact .inl ⟨rfl, State.inputRead_nil h⟩
  | cons r rest => exact .inr ⟨r, rest, rfl, State.inputRead_cons h⟩

/-! ### The shared parts of the meanings -/

/-- The read-modify-write of a cell inside the memory. -/
theorem updateCell_of_lt (f : Byte → Byte) {s : State} (h : s.dp < s.dmem.size) :
    updateCell f s = .next { s with dmem := s.dmem.put s.dp (f (s.dmem.get s.dp)), ip := s.ip + 1 } := by
  simp only [updateCell, State.cellAddr_eq_dp, State.memRead_of_lt h, orRaise_ok, State.memWrite_of_lt h]
  rfl

theorem updateCell_of_le (f : Byte → Byte) {s : State} (h : s.dmem.size ≤ s.dp) :
    updateCell f s = .next (s.recordFault .outOfBounds) := by
  simp only [updateCell, State.cellAddr_eq_dp, State.memRead_of_le h, orRaise_error]

@[simp] theorem jumpToScan_ok (p : Nat) (s : State) : jumpToScan (.ok p) s = .next (s.jump p) := rfl

@[simp] theorem jumpToScan_error (k : FaultKind) (s : State) :
    jumpToScan (.error k) s = .next (s.recordFault k) := rfl

@[simp] theorem cellIsZero_iff (v : Byte) : cellIsZero v = true ↔ v = 0#8 := by simp [cellIsZero]

/-! ### The fault record and its two readings -/

@[simp] theorem FaultRecord.asFault_record (r : FaultRecord) : r.asFault.record = r := by
  obtain ⟨k, p⟩ := r; cases k <;> rfl

end Sys2Proof.Machine
end

