-- ==== Sys2Proof/Laws/Matcher.lean ====
section
/-! SUPPORT. The bracket matcher: where a scan can end, and the unfolding of its loops and of the bracket counts. -/

namespace Sys2Proof.Machine

/-! ### Bounds -/

theorem scanForwardFrom_bounds {m : Memory} {left pos depth t : Nat} (h : scanForwardFrom m left pos depth = .ok t) :
    pos < t ∧ t ≤ pos + left := by
  induction left generalizing pos depth with
  | zero => cases h
  | succ left ih =>
    simp only [scanForwardFrom] at h
    split_ifs at h
    · have := ih h; omega
    · cases h; omega
    · have := ih h; omega
    · have := ih h; omega

/-- A forward target lies after the position behind the bracket and not past the program (spec/10_state.md R22). -/
theorem scanForward_bounds {m : Memory} {p t : Nat} (h : scanForward m p = .ok t) : p + 1 < t ∧ t ≤ m.size := by
  have := scanForwardFrom_bounds h; omega

theorem scanBackwardFrom_bounds {m : Memory} {bound depth t : Nat} (h : scanBackwardFrom m bound depth = .ok t) :
    t < bound := by
  induction bound generalizing depth with
  | zero => cases h
  | succ pos ih =>
    simp only [scanBackwardFrom] at h
    split_ifs at h
    · have := ih h; omega
    · cases h; omega
    · have := ih h; omega
    · have := ih h; omega

/-- A backward target lies before the bracket (spec/10_state.md R22). -/
theorem scanBackward_bounds {m : Memory} {p t : Nat} (h : scanBackward m p = .ok t) : t < p :=
  scanBackwardFrom_bounds h

/-! ### The only fault of a scan -/

theorem scanForwardFrom_error {m : Memory} {left pos depth : Nat} {k : FaultKind}
    (h : scanForwardFrom m left pos depth = .error k) : k = .unmatchedBracket := by
  induction left generalizing pos depth with
  | zero => cases h; rfl
  | succ left ih =>
    simp only [scanForwardFrom] at h
    split_ifs at h <;> exact ih h

theorem scanBackwardFrom_error {m : Memory} {bound depth : Nat} {k : FaultKind}
    (h : scanBackwardFrom m bound depth = .error k) : k = .unmatchedBracket := by
  induction bound generalizing depth with
  | zero => cases h; rfl
  | succ pos ih =>
    simp only [scanBackwardFrom] at h
    split_ifs at h <;> exact ih h

/-- A scan that fails reports UnmatchedBracket, never OutOfBounds (spec/43_loop.md R147). -/
theorem scanForward_error {m : Memory} {p : Nat} {k : FaultKind} (h : scanForward m p = .error k) :
    k = .unmatchedBracket := scanForwardFrom_error h

theorem scanBackward_error {m : Memory} {p : Nat} {k : FaultKind} (h : scanBackward m p = .error k) :
    k = .unmatchedBracket := scanBackwardFrom_error h

/-! ### Counting brackets -/

@[simp] theorem Memory.countFrom_zero (m : Memory) (c : Byte) (lo : Nat) : m.countFrom c lo 0 = 0 := rfl

/-- One more position at the high end. -/
theorem Memory.countFrom_succ (m : Memory) (c : Byte) (lo n : Nat) :
    m.countFrom c lo (n + 1) = m.countFrom c lo n + if m.get (lo + n) = c then 1 else 0 := by
  simp [Memory.countFrom, List.range'_concat, List.countP_append, List.countP_cons]

/-- One more position at the low end. -/
theorem Memory.countFrom_cons (m : Memory) (c : Byte) (lo n : Nat) :
    m.countFrom c lo (n + 1) = m.countFrom c (lo + 1) n + if m.get lo = c then 1 else 0 := by
  simp [Memory.countFrom, List.range'_succ, List.countP_cons]

end Sys2Proof.Machine
end

