-- ==== Sys2Proof/Laws/PerInstr.lean ====
section
/-! SUPPORT. One lemma per constructor for statements about every instruction as syntax. -/

namespace Sys2Proof.Laws.WordRoundTrip

/-- A well-formed instruction is read back from its word, whatever bytes follow it. -/
def Statement (i : Instr) : Prop :=
  i.wellFormed = true → ∀ rest, decode (encode i ++ rest) = .ok (i, rest)

theorem right : Statement .right := fun _ _ => rfl
theorem left : Statement .left := fun _ _ => rfl
theorem inc : Statement .inc := fun _ _ => rfl
theorem dec : Statement .dec := fun _ _ => rfl
theorem loopBegin : Statement .loopBegin := fun _ _ => rfl
theorem loopEnd : Statement .loopEnd := fun _ _ => rfl
theorem out : Statement .out := fun _ _ => rfl
theorem inp : Statement .inp := fun _ _ => rfl

theorem nop (op : Byte) : Statement (.nop op) := fun h _ => by
  simp only [Instr.wellFormed, opcodeBytes, Bool.not_eq_true', List.contains_eq_mem, decide_eq_false_iff_not,
    List.mem_cons, List.not_mem_nil, or_false, not_or] at h
  simp [encode, encodeByte, decode, decodeByte, h]

end Sys2Proof.Laws.WordRoundTrip
end

