-- ==== Sys2Proof/Laws/Step.lean ====
section
/-! SUPPORT. Everything one step can do, said once, and how the host's placing of an instruction relates to a load. -/

namespace Sys2Proof.Machine

/-- The inversion of a step that answers a next state: no fault was recorded, and either the termination check fired, or the
byte at `ip` was decoded and executed on the flushed state (spec/40_step_cycle.md R111). -/
theorem step_cases {s t : State} (h : step s = .next t) :
    s.fault = none ∧
    ((s.imem.size ≤ s.ip ∧ t = s.flush) ∨
     (s.ip < s.imem.size ∧ exec (decodeByte (s.imem.get s.ip)) s.flush = .next t)) := by
  unfold step cycle at h
  cases hf : s.fault with
  | some r => rw [hf] at h; cases h
  | none =>
    rw [hf] at h
    refine ⟨rfl, ?_⟩
    simp only [checkAndExecute] at h
    by_cases he : s.flush.atEnd = true
    · rw [if_pos he] at h
      exact .inl ⟨by simpa using s.flush.atEnd_iff.mp he, (Host.Outcome.next.inj h).symm⟩
    · rw [if_neg he] at h
      have hlt : s.ip < s.imem.size := by
        have := mt s.flush.atEnd_iff.mpr he; simp only [State.flush_imem, State.flush_ip] at this; omega
      have hfetch : s.flush.fetch = .ok (s.imem.get s.ip) := by
        rw [State.fetch_of_lt (by simpa using hlt), State.flush_imem, State.flush_ip]
      rw [hfetch] at h
      exact .inr ⟨hlt, h⟩

/-- The step of a machine that stands at an instruction. -/
theorem step_of_lt {s : State} (hf : s.fault = none) (h : s.ip < s.imem.size) :
    step s = exec (decodeByte (s.imem.get s.ip)) s.flush := by
  have he : ¬s.flush.atEnd = true := fun e => by
    have := s.flush.atEnd_iff.mp e; simp only [State.flush_imem, State.flush_ip] at this; omega
  have hfetch : s.flush.fetch = .ok (s.imem.get s.ip) := by
    rw [State.fetch_of_lt (by simpa using h), State.flush_imem, State.flush_ip]
  simp only [step, cycle, hf, checkAndExecute, if_neg he, hfetch, orRaise_ok]

/-- The step of a machine that has run off its program. -/
theorem step_of_le {s : State} (hf : s.fault = none) (h : s.imem.size ≤ s.ip) : step s = .next s.flush := by
  have he : s.flush.atEnd = true := s.flush.atEnd_iff.mpr (by simpa using h)
  simp only [step, cycle, hf, checkAndExecute, if_pos he]

/-- The step of a machine that has faulted. -/
theorem step_of_fault {s : State} {r : FaultRecord} (hf : s.fault = some r) : step s = .fault r.asFault := by
  simp only [step, cycle, hf]

/-! ### The result the host sees -/

theorem resultOf_fault {s t : State} {r : FaultRecord} (h : t.fault = some r) : resultOf s t = .fault r := by
  simp only [resultOf, h]

theorem resultOf_halted {s t : State} (h : t.fault = none) (he : s.imem.size ≤ s.ip) : resultOf s t = .halted := by
  simp only [resultOf, h, if_pos (s.atEnd_iff.mpr he)]

theorem resultOf_cont {s t : State} (h : t.fault = none) (hlt : s.ip < s.imem.size) : resultOf s t = .cont := by
  simp only [resultOf, h, if_neg (mt s.atEnd_iff.mp (Nat.not_le.mpr hlt))]

theorem stepCall_of_next {s t : State} (h : step s = .next t) : stepCall s = some (resultOf s t, t) := by
  simp only [stepCall, h]

theorem stepCall_of_fault {s : State} {r : FaultRecord} (h : s.fault = some r) : stepCall s = some (.fault r, s) := by
  simp only [stepCall, step_of_fault h, FaultRecord.asFault_record]

/-! ### Placing an instruction -/

/-- A one-byte table word is that byte. -/
theorem tableBytes_eight (w : Nat) : tableBytes 8 w = [BitVec.ofNat 8 w] := by
  simp only [tableBytes, show max 1 ((8 + 7) / 8) = 1 from rfl, lowBytes, List.cons.injEq, and_true]
  apply BitVec.eq_of_toNat_eq
  simp

/-- `withFetchWord` does what it is for, in any state with nothing staged: the next step executes the word's instruction. -/
theorem step_withFetchWord {s : State} (w : Nat) (hi : s.imem.wf) (hp : s.pout = 0#8) :
    step (s.withFetchWord 8 w) = exec (decodeByte (BitVec.ofNat 8 w)) (s.withFetchWord 8 w) := by
  have hm := Memory.takeBelow_wf hi s.ip
  have himem : (s.withFetchWord 8 w).imem = (s.imem.takeBelow s.ip).overlay s.ip [BitVec.ofNat 8 w] := by
    rw [State.withFetchWord, tableBytes_eight]; rfl
  have hip : (s.withFetchWord 8 w).ip = s.ip := rfl
  have hsize : (s.withFetchWord 8 w).ip < (s.withFetchWord 8 w).imem.size := by
    rw [himem, hip, Memory.overlay_size _ _ _ (le_refl s.ip)]; simp
  rw [step_of_lt rfl hsize, State.flush_of_pout_zero _ (show (s.withFetchWord 8 w).pout = 0#8 from hp), himem, hip,
    Memory.overlay_get hm]
  simp

/-- On the reset state `withFetchWord` is `load_program` of the one-byte program (log entry 8). -/
theorem reset_withFetchWord_eq_load (w : Nat) :
    State.reset.withFetchWord 8 w = (loadProgram [BitVec.ofNat 8 w] State.reset).2 := by
  rw [State.withFetchWord, tableBytes_eight]; rfl

end Sys2Proof.Machine
end

