-- ==== Sys2Proof/Tests/Slice0.lean ====
section
/-! SUPPORT. Small tests whose expected results are the vectors of spec/95_test_vectors.md (named in each comment) or a word
written out from spec/30_encoding.md R83, and one witness for the hypotheses of each statement. -/

namespace Sys2Proof.Tests

open Sys2Proof.Machine

/-! ### Helpers -/

/-- The machine of the vectors' conventions: DMEM_SIZE 4, the program loaded, here with IMEM_CAP 8 and PTR_W 4. -/
def machine (program : List Byte) (cells : List Host.Cell) : State :=
  { imemCap := 8, ptrW := 4, imem := Memory.ofBytes program, dmem := { size := 4, cells := cells }
    ip := 0, dp := 0, pout := 0#8, fault := none, input := [], out := [] }

/-- The next state a result holds. -/
def after (r : Result) : Option State :=
  match r with
  | .next t => some t
  | .fault _ => none
  | .refused _ => none

/-- The invariant of a machine that has just been set up. -/
theorem inv_of_checks {s : State} (h1 : s.config.valid) (h2 : s.imem.wf) (h3 : s.dmem.wf) (h4 : s.plen ≤ s.imemCap)
    (h5 : s.ip ≤ s.plen) (h6 : s.dp < 2 ^ s.ptrW) (h7 : s.fault = none) (h8 : s.out = []) : s.Inv :=
  State.Inv.mk h1 h2 h3 h4 h5 h6 (fun r hr => by rw [h7] at hr; cases hr) (fun b hb => by rw [h8] at hb; cases hb)

/-! ### WellFormed, and the decoding of words -/

/-- The only check: a no-op that carries an opcode byte is refused (R180). -/
theorem test_nop_with_opcode_byte_ill_formed : (Instr.nop 0x3E#8).wellFormed = false := by decide
theorem test_nop_with_other_byte_well_formed : (Instr.nop 0x3D#8).wellFormed = true := by decide

/-- The binary column of R83. -/
theorem test_decode_right : decode [0b00111110#8] = .ok (.right, []) := by decide
theorem test_decode_left : decode [0b00111100#8] = .ok (.left, []) := by decide
theorem test_decode_inc : decode [0b00101011#8] = .ok (.inc, []) := by decide
theorem test_decode_dec : decode [0b00101101#8] = .ok (.dec, []) := by decide
theorem test_decode_loopBegin : decode [0b01011011#8] = .ok (.loopBegin, []) := by decide
theorem test_decode_loopEnd : decode [0b01011101#8] = .ok (.loopEnd, []) := by decide
theorem test_decode_out : decode [0b00101110#8] = .ok (.out, []) := by decide
theorem test_decode_inp : decode [0b00101100#8] = .ok (.inp, []) := by decide
/-- V-N2: the nearest neighbours of the opcodes are no-ops. -/
theorem test_decode_neighbours :
    [0xFF#8, 0x20#8, 0x0A#8, 0x3D#8, 0x2F#8, 0x5C#8, 0x3F#8, 0x2A#8, 0x5A#8, 0x5E#8].all
      (fun b => decodeByte b == .nop b) = true := by decide
theorem test_decode_no_byte : decode [] = .error .noByteLeft := by decide
theorem test_table_word_takes_one_byte : decodeTableWord 8 0x5B = some .loopBegin ∧ decodeTableWord 16 0x5B = none := by
  decide

/-! ### Pointer instructions -/

/-- V-P2: `<` at 0 gives the all-ones value, here 15, with no fault. -/
theorem test_left_wraps_at_zero :
    (after (exec .left (machine [] []))).map (fun t => (t.dp, t.ip, t.fault)) = some (15, 1, none) := by decide
/-- R121's example: dp 3 to 2. -/
theorem test_left_moves_down : (after (exec .left { machine [] [] with dp := 3 })).map (·.dp) = some 2 := by decide
/-- V-P3: `>` leaves the memory silently. -/
theorem test_right_leaves_memory :
    (after (exec .right { machine [] [] with dp := 3 })).map (fun t => (t.dp, t.fault)) = some (4, none) := by decide
/-- R123: the all-ones value plus 1 is 0. -/
theorem test_right_wraps_at_all_ones :
    (after (exec .right { machine [] [] with dp := 15 })).map (·.dp) = some 0 := by decide

/-! ### Cell arithmetic -/

/-- V-A3. -/
theorem test_inc_wraps :
    (after (exec .inc (machine [] [(0, 255#8), (1, 9#8)]))).map (·.dmem.cells) = some [(1, 9#8)] := by decide
/-- V-F1: no wrap of the address, nothing stored. -/
theorem test_inc_out_of_bounds :
    (after (exec .inc { machine [] [] with dp := 4, ip := 4 })).map (fun t => (t.fault, t.dmem.cells, t.ip)) =
      some (some ⟨.outOfBounds, 4⟩, [], 4) := by decide
/-- V-A4. -/
theorem test_dec_wraps : (after (exec .dec (machine [] []))).map (fun t => (t.dmem.get 0, t.ip)) = some (255#8, 1) := by
  decide
/-- V-A2. -/
theorem test_dec_takes_one : (after (exec .dec (machine [] [(0, 5#8)]))).map (·.dmem.get 0) = some 4#8 := by decide

/-! ### Loop instructions and the matcher -/

/-- `"[a[b]c]d"` of V-B5 to V-B7. -/
def nested : Memory := Memory.ofBytes [0x5B#8, 0x61#8, 0x5B#8, 0x62#8, 0x5D#8, 0x63#8, 0x5D#8, 0x64#8]

theorem test_scans_nested :
    scanForward nested 0 = .ok 7 ∧ scanBackward nested 6 = .ok 0 ∧ scanBackward nested 4 = .ok 2 := by decide
/-- V-B9, V-B10, V-B13, V-B14: the counter. -/
theorem test_scans_count :
    scanForward (Memory.ofBytes [0x5B#8, 0x5B#8, 0x5D#8]) 0 = .error .unmatchedBracket ∧
    scanForward (Memory.ofBytes [0x5B#8, 0x5B#8, 0x5D#8]) 1 = .ok 3 ∧
    scanBackward (Memory.ofBytes [0x5B#8, 0x5D#8, 0x5D#8]) 2 = .error .unmatchedBracket ∧
    scanBackward (Memory.ofBytes [0x5B#8, 0x5D#8, 0x5D#8]) 1 = .ok 0 := by decide
/-- V-S6: `"[-]"` on a zero cell. -/
theorem test_loopBegin_skips_body :
    (after (exec .loopBegin (machine [0x5B#8, 0x2D#8, 0x5D#8] []))).map (·.ip) = some 3 := by decide
/-- V-F3: `"["` on a zero cell. -/
theorem test_loopBegin_unmatched :
    (after (exec .loopBegin (machine [0x5B#8] []))).map (fun t => (t.fault, t.ip)) =
      some (some ⟨.unmatchedBracket, 0⟩, 0) := by decide
/-- V-L3, call 3: `]` lands on the `[` itself. -/
theorem test_loopEnd_jumps_to_opening :
    (after (exec .loopEnd { machine [0x5B#8, 0x2D#8, 0x5D#8] [(0, 1#8)] with ip := 2 })).map (·.ip) = some 0 := by decide
/-- Program 5, call 9: out of range wins over the scan. -/
theorem test_loopEnd_out_of_bounds :
    (after (exec .loopEnd { machine [0x2B#8, 0x5D#8] [(0, 1#8)] with ip := 1, dp := 15 })).map (·.fault) =
      some (some ⟨.outOfBounds, 1⟩) := by decide

/-! ### Input and output -/

/-- V-S2, call 4: the byte is staged, not emitted. -/
theorem test_out_stages :
    (after (exec .out (machine [] [(0, 3#8)]))).map (fun t => (t.pout, t.out, t.ip)) = some (3#8, [], 1) := by decide
/-- V-I9. -/
theorem test_out_out_of_bounds :
    (after (exec .out { machine [] [] with dp := 4, ip := 4 })).map (fun t => (t.pout, t.fault)) =
      some (0#8, some ⟨.outOfBounds, 4⟩) := by decide
/-- V-S9, call 1: the byte is stored and `ip` does not move. -/
theorem test_inp_stores_without_advance :
    (after (exec .inp { machine [0x2C#8] [] with input := [.byte 0x41#8, .eof] })).map
      (fun t => (t.ip, t.dmem.get 0, t.input)) = some (0, 0x41#8, [.eof]) := by decide
/-- V-I7, call 5: the byte is consumed and lost. -/
theorem test_inp_out_of_bounds_consumes :
    (after (exec .inp { machine [] [] with dp := 4, ip := 4, input := [.byte 0x5A#8] })).map
      (fun t => (t.fault, t.input, t.dmem.cells)) = some (some ⟨.outOfBounds, 4⟩, [], []) := by decide

/-! ### NOP, the step, the host's operations -/

/-- V-N1. -/
theorem test_nop_advances : (after (exec (.nop 0#8) (machine [0#8] []))).map (fun t => (t.ip, t.dp)) = some (1, 0) := by
  decide
/-- V-T6, call 3: the flush of a step that faults stays. -/
theorem test_step_flushes_then_faults :
    (after (step { machine [0x2B#8, 0x2E#8, 0x5D#8] [(0, 1#8)] with ip := 2, pout := 1#8 })).map
      (fun t => (t.out, t.pout, t.ip, t.fault)) = some ([1#8], 0#8, 2, some ⟨.unmatchedBracket, 2⟩) := by decide
/-- V-S2, call 5: the halting step emits. -/
theorem test_halting_step_flushes :
    (stepCall { machine [0x2B#8, 0x2B#8, 0x2B#8, 0x2E#8] [(0, 3#8)] with ip := 4, pout := 3#8 }).map
      (fun r => (r.1, r.2.out, r.2.pout)) = some (.halted, [3#8], 0#8) := by decide
/-- V-F6: the absorbing fault. -/
theorem test_faulted_step_and_load :
    step { machine [0x3C#8, 0x2B#8] [] with ip := 1, dp := 15, fault := some ⟨.outOfBounds, 1⟩ } = .fault (.outOfBounds 1) ∧
    (loadProgram [0x2B#8] { machine [0x3C#8, 0x2B#8] [] with ip := 1, fault := some ⟨.outOfBounds, 1⟩ }).1 = .refused :=
  ⟨rfl, by decide⟩
/-- V-R4: a staged byte survives a load. -/
theorem test_load_keeps_staged_byte :
    (loadProgram [0x68#8, 0x65#8] { machine [0x2B#8, 0x2E#8] [(0, 1#8)] with ip := 2, dp := 3, pout := 1#8 }).2 =
      { machine [0x68#8, 0x65#8] [(0, 1#8)] with pout := 1#8 } := by decide
/-- V-R2: four bytes do not fit in IMEM_CAP 3. -/
theorem test_load_too_long_refused :
    (loadProgram [0x2B#8, 0x2B#8, 0x2B#8, 0x2B#8] (State.create ⟨3, 4, 4⟩ [])).1 = .refused := by decide
/-- The host's question: after reset, the placed instruction is the one that runs. -/
theorem test_reset_runs_placed_instruction :
    (after (step (State.reset.withFetchWord 8 0x3C))).map (fun t => (t.dp, t.ip)) = some (65535, 1) := by decide

/-! ### Witnesses: states and operands that meet a statement's hypotheses, clause by clause -/

theorem witness_DecoderComparesWholeByte :
    0x3D#8 ∉ [0x3E#8, 0x3C#8, 0x2B#8, 0x2D#8, 0x5B#8, 0x5D#8, 0x2E#8, 0x2C#8] := by decide

theorem witness_ProgramsDecodeAndEncodeAgree :
    (∀ i ∈ [Instr.right, .nop 0xFF#8], i.wellFormed = true) ∧ [0x3E#8, 0xFF#8][1]? = some 0xFF#8 := by decide

theorem witness_FreshMemoryReadsZero : (3 < 4) ∧ (4 ≤ 4) := by decide

theorem witness_MemoryAccessContract :
    (Memory.mk 4 [(1, 9#8), (3, 7#8)]).wf ∧ 3 < (Memory.mk 4 [(1, 9#8), (3, 7#8)]).size ∧
    (Memory.mk 4 [(1, 9#8), (3, 7#8)]).size ≤ 4 ∧ 2 ≠ 3 := by decide

theorem witness_MemoryIsItsReads :
    ∃ m m' : Memory, m.wf ∧ m'.wf ∧ m.size = m'.size ∧ ∀ a, m.read a = m'.read a :=
  ⟨Memory.mk 4 [(3, 7#8)], (Memory.create 4).put 3 7#8, by decide, by decide, by decide, fun _ => rfl⟩

theorem witness_RightMovesDataPointerUp :
    (0 < 2 ^ (machine [] []).ptrW) ∧ ({ machine [] [] with dp := 15 } : State).dp + 1 = 2 ^ (machine [] []).ptrW := by
  decide

theorem witness_LeftMovesDataPointerDown :
    0 < (machine [] []).ptrW ∧ (machine [] []).dp < 2 ^ (machine [] []).ptrW ∧
    ({ machine [] [] with dp := 15 } : State).dp < 2 ^ (machine [] []).ptrW := by decide

/-- Both ends of the window, and the two values on either side of 0. -/
theorem witness_UnboundedPointerAgreesInWindow :
    (machine [] []).config.valid ∧ ((4 : Int) - 2 ^ 4 ≤ -12 ∧ (4 : Int) = -12 % 2 ^ 4) ∧
    ((15 : Int) ≤ 2 ^ 4 - 1 ∧ (15 : Int) = 15 % 2 ^ 4) ∧ (15 : Int) = -1 % 2 ^ 4 ∧ (0 : Int) = 0 % 2 ^ 4 := by decide

theorem witness_IncrementAddsOneToCell :
    (machine [] [(3, 255#8)]).dmem.wf ∧ 3 < (machine [] []).dmemSize ∧ (machine [] []).dmemSize ≤ 4 ∧ 2 ≠ 3 := by decide

theorem witness_DecrementTakesOneFromCell :
    (machine [] [(3, 1#8)]).dmem.wf ∧ 3 < (machine [] []).dmemSize ∧ (machine [] []).dmemSize ≤ 4 ∧ 2 ≠ 3 := by decide

theorem witness_RepeatedArithmeticIsModulo256 :
    (machine [0x2B#8, 0x2B#8, 0x2D#8] [(0, 255#8)]).Inv ∧
    (∀ k, k < 2 → (machine [0x2B#8, 0x2B#8, 0x2D#8] [(0, 255#8)]).imem.get (0 + k) = 0x2B#8) ∧
    (∀ k, k < 1 → ({ machine [0x2B#8, 0x2B#8, 0x2D#8] [] with ip := 2 } : State).imem.get (2 + k) = 0x2D#8) ∧
    0 < (machine [] []).dmemSize ∧ 2 + 1 ≤ (machine [0x2B#8, 0x2B#8, 0x2D#8] []).plen :=
  ⟨inv_of_checks (by decide) (by decide) (by decide) (by decide) (by decide) (by decide) rfl rfl,
    by decide, by decide, by decide, by decide⟩

theorem witness_BracketScansAreInverse :
    nested.get 0 = 0x5B#8 ∧ scanForward nested 0 = .ok (6 + 1) ∧
    nested.get 4 = 0x5D#8 ∧ 4 < nested.size ∧ scanBackward nested 4 = .ok 2 := by decide

/-- `"[-]"` and `"[z]"`: different bytes, the same brackets. -/
theorem witness_ScansSeeOnlyBrackets :
    ∃ m m' : Memory, m.size = m'.size ∧ m ≠ m' ∧
      ∀ a, (m.get a = 0x5B#8 ↔ m'.get a = 0x5B#8) ∧ (m.get a = 0x5D#8 ↔ m'.get a = 0x5D#8) := by
  refine ⟨Memory.mk 3 [(0, 0x5B#8), (1, 0x2D#8), (2, 0x5D#8)], Memory.mk 3 [(0, 0x5B#8), (1, 0x7A#8), (2, 0x5D#8)],
    rfl, by decide, fun a => ?_⟩
  match a with
  | 0 => decide
  | 1 => decide
  | 2 => decide
  | a + 3 => simp [Memory.get, cellsGet]

theorem witness_LoopBeginJumpsWhenCellIsZero :
    (machine [] []).dmemSize ≤ ({ machine [] [] with dp := 4 } : State).dp ∧
    (3 < (machine [] [(3, 1#8)]).dmemSize ∧ (machine [] [(3, 1#8)]).dmem.get 3 ≠ 0#8) ∧
    ((machine [] []).dmem.get 0 = 0#8 ∧ scanForward (machine [0x5B#8, 0x5D#8] []).imem 0 = .ok 2) ∧
    scanForward (machine [0x5B#8] []).imem 0 = .error .unmatchedBracket := by decide

theorem witness_LoopEndJumpsWhenCellIsNonzero :
    (machine [] []).dmemSize ≤ ({ machine [] [] with dp := 4 } : State).dp ∧
    (3 < (machine [] []).dmemSize ∧ (machine [] []).dmem.get 3 = 0#8) ∧
    ((machine [] [(0, 1#8)]).dmem.get 0 ≠ 0#8 ∧ scanBackward (machine [0x5B#8, 0x5D#8] []).imem 1 = .ok 0) ∧
    scanBackward (machine [0x5D#8] []).imem 0 = .error .unmatchedBracket := by decide

theorem witness_OutStagesCurrentCell : 3 < (machine [] []).dmemSize ∧ (machine [] []).dmemSize ≤ 4 := by decide

theorem witness_InpStoresByteOrAdvancesAtEof :
    (machine [] []).dmem.wf ∧
    (∃ t, ({ machine [] [] with dp := 4 } : State).inputRead = (.eof, t)) ∧
    (∃ t, ({ machine [] [] with dp := 3, input := [.byte 0#8] } : State).inputRead = (.byte 0#8, t)) ∧
    (∃ t, ({ machine [] [] with dp := 4, input := [.byte 255#8] } : State).inputRead = (.byte 255#8, t)) :=
  ⟨by decide, ⟨_, rfl⟩, ⟨_, rfl⟩, ⟨_, rfl⟩⟩

theorem witness_InputStreamAnswersInOrder :
    (machine [] []).input = [] ∧
    ({ machine [] [] with input := [.eof, .byte 1#8] } : State).input = .eof :: [.byte 1#8] := by decide

/-- Bytes and then nothing listed; and bytes, EOF, and a byte after the EOF. -/
theorem witness_InpSwallowsAllAvailableInput :
    ({ machine [0x2C#8] [] with input := [.byte 0x41#8, .byte 0x42#8] } : State).Inv ∧
    (machine [0x2C#8] []).imem.get 0 = 0x2C#8 ∧ 0 < (machine [0x2C#8] []).plen ∧ 0 < (machine [] []).dmemSize ∧
    [InputAnswer.byte 0x41#8, .byte 0x42#8] = [0x41#8, 0x42#8].map .byte ++ [] ∧
    (∀ b : Byte, ([] : List InputAnswer).head? ≠ some (.byte b)) ∧
    [InputAnswer.byte 0x41#8, .eof, .byte 7#8] = [0x41#8].map .byte ++ [.eof, .byte 7#8] ∧
    (∀ b : Byte, [InputAnswer.eof, .byte 7#8].head? ≠ some (.byte b)) :=
  ⟨inv_of_checks (by decide) (by decide) (by decide) (by decide) (by decide) (by decide) rfl rfl,
    by decide, by decide, by decide, rfl, by simp, rfl, by simp⟩

/-- A step that executes `.`, with a byte staged before it. -/
theorem witness_OutputAppearsOneStepLate :
    ∃ t, step { machine [0x2E#8] [(0, 3#8)] with pout := 5#8 } = .next t ∧ t.out = [5#8] ∧ t.pout = 3#8 :=
  ⟨_, rfl, rfl, rfl⟩

/-- `"+."` and the halting step: one byte is emitted. -/
theorem witness_ZeroByteIsNeverEmitted :
    ∃ t, stepN 3 (machine [0x2B#8, 0x2E#8] []) = .next t ∧ t.out = [1#8] := ⟨_, rfl, rfl⟩

theorem witness_OutputIsNeverReadBack :
    ∃ t, step { machine [0x2B#8] [] with pout := 5#8, out := [1#8] } = .next t ∧ t.out = [1#8, 5#8] := ⟨_, rfl, rfl⟩

theorem witness_OnlyInpAsksForInput :
    (∃ t, step { machine [0x2C#8] [] with input := [.eof, .eof] } = .next t ∧ t.input = [.eof]) ∧
    (∃ t, step { machine [0x2B#8] [] with input := [.eof] } = .next t ∧ t.input = [.eof]) := ⟨⟨_, rfl, rfl⟩, ⟨_, rfl, rfl⟩⟩

theorem witness_OtherBytesOnlyAdvance :
    0x2F#8 ∉ [0x3E#8, 0x3C#8, 0x2B#8, 0x2D#8, 0x5B#8, 0x5D#8, 0x2E#8, 0x2C#8] := by decide

theorem witness_StepRunsDecodedInstruction :
    (machine [0x2B#8] []).fault = none ∧ 0 < (machine [0x2B#8] []).plen ∧
    decode [(machine [0x2B#8] []).imem.get 0] = .ok (.inc, []) := by decide

theorem witness_StepHaltsAtProgramEnd :
    (machine [] []).fault = none ∧ (machine [] []).plen ≤ (machine [] []).ip := by decide

theorem witness_StepAfterHaltHasNoEffect : ∃ t, stepCall { machine [] [] with pout := 1#8 } = some (.halted, t) :=
  ⟨_, rfl⟩

theorem witness_FaultedStepReturnsRecordedFault :
    ({ machine [] [] with fault := some ⟨.unmatchedBracket, 0⟩ } : State).fault = some ⟨.unmatchedBracket, 0⟩ := rfl

theorem witness_StepStopsExactlyOnFaultedMachine :
    ({ machine [] [] with fault := some ⟨.outOfBounds, 2⟩ } : State).fault = some ⟨.outOfBounds, 2⟩ ∧
    ({ machine [] [] with fault := some ⟨.unmatchedBracket, 2⟩ } : State).fault = some ⟨.unmatchedBracket, 2⟩ ∧
    (machine [] []).fault = none := ⟨rfl, rfl, rfl⟩

/-- A run that ends HALTED (V-T4 with its last step) and one that ends FAULT (V-F2). -/
theorem witness_RunEndsFlushedAndAtItsEnd :
    (machine [0x2B#8, 0x2E#8] []).Inv ∧ (∃ t, run 3 (machine [0x2B#8, 0x2E#8] []) = some (.halted, t)) ∧
    (machine [0x2B#8, 0x5D#8] []).Inv ∧
    (∃ t, run 2 (machine [0x2B#8, 0x5D#8] []) = some (.fault ⟨.unmatchedBracket, 1⟩, t)) :=
  ⟨inv_of_checks (by decide) (by decide) (by decide) (by decide) (by decide) (by decide) rfl rfl, ⟨_, rfl⟩,
    inv_of_checks (by decide) (by decide) (by decide) (by decide) (by decide) (by decide) rfl rfl, ⟨_, rfl⟩⟩

theorem witness_FaultsArisePerInstructionTable : (machine [0x5B#8] []).fault = none := rfl

/-- V-F3, and V-I7 with its input byte. -/
theorem witness_FaultsArePrecise :
    (∃ t, step (machine [0x5B#8] []) = .next t ∧ t.fault = some ⟨.unmatchedBracket, 0⟩) ∧
    (∃ t, step { machine [0x2C#8] [] with dp := 4, input := [.byte 0x5A#8] } = .next t ∧
      t.fault = some ⟨.outOfBounds, 0⟩ ∧ t.input = []) := ⟨⟨_, rfl, rfl⟩, ⟨_, rfl, rfl, rfl⟩⟩

theorem witness_FaultIsAbsorbing :
    ({ machine [] [] with fault := some ⟨.outOfBounds, 0⟩ } : State).fault = some ⟨.outOfBounds, 0⟩ := rfl

theorem witness_FaultRecordCodes :
    (machine [] []).fault = none ∧
    ({ machine [] [] with fault := some ⟨.outOfBounds, 7⟩ } : State).fault = some ⟨.outOfBounds, 7⟩ ∧
    ({ machine [] [] with fault := some ⟨.unmatchedBracket, 7⟩ } : State).fault = some ⟨.unmatchedBracket, 7⟩ :=
  ⟨rfl, rfl, rfl⟩

/-- A form that completes and one that raises. -/
theorem witness_FrameOfNonStoringInstructions :
    (∃ t, exec .out (machine [0x2E#8] [(0, 1#8)]) = .next t ∧ t.fault = none) ∧
    (∃ t, exec .out { machine [0x2E#8] [] with dp := 4 } = .next t ∧ t.fault = some ⟨.outOfBounds, 0⟩) :=
  ⟨⟨_, rfl, rfl⟩, ⟨_, rfl, rfl⟩⟩

theorem witness_FrameOfStoringInstructions :
    (machine [0x2B#8] [(1, 9#8)]).dmem.wf ∧ (∃ t, exec .inc (machine [0x2B#8] [(1, 9#8)]) = .next t ∧ t.fault = none) ∧
    (∃ t, exec .inc { machine [0x2B#8] [] with dp := 4 } = .next t ∧ t.fault = some ⟨.outOfBounds, 0⟩) :=
  ⟨by decide, ⟨_, rfl, rfl⟩, ⟨_, rfl, rfl⟩⟩

theorem witness_OnlyCurrentCellIsUsed :
    (machine [] [(0, 1#8), (2, 5#8)]).dmem.wf ∧ (Memory.mk 4 [(0, 1#8), (3, 6#8)]).wf ∧
    (Memory.mk 4 [(0, 1#8), (3, 6#8)]).size = (machine [] []).dmem.size ∧
    (Memory.mk 4 [(0, 1#8), (3, 6#8)]).get 0 = (machine [] [(0, 1#8), (2, 5#8)]).dmem.get 0 := by decide

theorem witness_StepsNeverChangeProgramOrParameters :
    ∃ t, stepN 2 (machine [0x2B#8, 0x3E#8] []) = .next t := ⟨_, rfl⟩

/-- Size 0 is admitted for both memories. -/
theorem witness_CreationMeetsInvariant : Config.valid ⟨0, 0, 1⟩ ∧ Config.valid ⟨65535, 65535, 16⟩ := by decide

theorem witness_StepKeepsInvariant :
    (machine [0x2B#8] []).Inv ∧ ∃ t, step (machine [0x2B#8] []) = .next t :=
  ⟨inv_of_checks (by decide) (by decide) (by decide) (by decide) (by decide) (by decide) rfl rfl, ⟨_, rfl⟩⟩

theorem witness_LoadKeepsInvariant : (machine [0x2B#8] []).Inv :=
  inv_of_checks (by decide) (by decide) (by decide) (by decide) (by decide) (by decide) rfl rfl

theorem witness_ReachableInstructionPointerStaysInProgram :
    Reachable (HostOp.step.apply ((HostOp.load [0x2B#8]).apply (State.create ⟨8, 4, 4⟩ []))) :=
  .op _ _ (.op _ _ (.create _ _ (by decide)))

theorem witness_CreationValues : 7 < (Config.mk 8 4 4).imemCap ∧ 3 < (Config.mk 8 4 4).dmemSize := by decide

/-- A program of exactly IMEM_CAP bytes is accepted. -/
theorem witness_LoadInstallsProgram :
    (State.create ⟨2, 4, 4⟩ []).fault = none ∧ [0x2B#8, 0x2D#8].length ≤ (State.create ⟨2, 4, 4⟩ []).imemCap ∧
    [0x2B#8, 0x2D#8][1]? = some 0x2D#8 := by decide

theorem witness_LoadRefusedWithoutEffect :
    (State.create ⟨1, 4, 4⟩ []).imemCap < [0x2B#8, 0x2D#8].length ∧
    ({ machine [] [] with fault := some ⟨.outOfBounds, 0⟩ } : State).fault ≠ none := by decide

theorem witness_UnloadedMachineRunsNoOpsThenHalts : 3 ≤ (Config.mk 3 4 4).imemCap ∧ 2 < (Config.mk 3 4 4).imemCap := by
  decide

end Sys2Proof.Tests
end

section
/-! SUPPORT. Facts about the model's operations beside those of Sys2Proof/Laws/: pointer arithmetic on integers, the decoder
undone, reads of equal bytes, the flush and the input request as one update each. -/

namespace Sys2Proof.Machine

/-! ### Pointer arithmetic on integers -/

theorem addP_cast (w a b : Nat) : (addP w a b : Int) = (a + b) % 2 ^ w := by
  simp [addP]

theorem subP_cast (w a b : Nat) : (subP w a b : Int) = (a - b) % 2 ^ w := by
  have hle : b % 2 ^ w ≤ 2 ^ w := (Nat.mod_lt _ (Nat.two_pow_pos w)).le
  have hsum : (a + (2 ^ w - b % 2 ^ w) : Int) = a - b + 2 ^ w * (1 + b / 2 ^ w) := by
    linear_combination -Int.emod_add_mul_ediv b (2 ^ w)
  rw [subP, Int.natCast_emod, Int.natCast_add, Int.ofNat_sub hle]
  push_cast
  rw [hsum, Int.add_mul_emod_self_left]

/-! ### The decoder -/

theorem encodeByte_decodeByte (op : Byte) : encodeByte (decodeByte op) = op := by
  unfold decodeByte
  split_ifs <;> simp_all [encodeByte]

theorem decodeByte_eq_inp_iff {op : Byte} : decodeByte op = .inp ↔ op = 0x2C#8 :=
  ⟨fun h => by rw [← encodeByte_decodeByte op, h]; rfl, fun h => by rw [h]; rfl⟩

/-! ### Memory and the output stream -/

/-- Memories of one length that hold the same byte at an address read alike there. -/
theorem Memory.read_congr {m m' : Memory} {a : Nat} (hsize : m'.size = m.size) (hget : m'.get a = m.get a) :
    m'.read a = m.read a := by
  simp only [Memory.read, hsize, hget]

theorem State.flush_withOut (s : State) (o : List Byte) :
    State.flush { s with out := o } = { s.flush with out := o ++ s.pending } := by
  rw [State.flush_eq, State.flush_eq]; rfl

/-! ### Two updates that have no name in the model -/

/-- The state with `v` in the current cell, what `memWrite` leaves when `dp` is inside data memory. -/
@[simps] def State.storeCell (s : State) (v : Byte) : State := { s with dmem := s.dmem.put s.dp v }

/-- The state after one request to the input stream, what `inputRead` leaves. -/
@[simps] def State.takeInput (s : State) : State := { s with input := s.input.tail }

theorem State.memWrite_eq_storeCell {s : State} (h : s.dp < s.dmem.size) (v : Byte) :
    s.memWrite s.dp v = .ok (s.storeCell v) := State.memWrite_of_lt h v

/-- A request answers the head of the list, EOF when there is none (spec/10_state.md R35, R36). -/
theorem State.inputRead_eq (s : State) : s.inputRead = (s.input.head?.getD .eof, s.takeInput) := by
  obtain ⟨_, _, _, _, _, _, _, _, input, _⟩ := s
  cases input <;> rfl

end Sys2Proof.Machine
end

section
/-! SUPPORT. What each instruction does, said once: a relation with one clause per case of each instruction, which holds
exactly when `exec` answers that next state. Proofs about `exec` split along its clauses and unfold no meaning again. -/

namespace Sys2Proof.Machine

/-! ### The relation -/

/-- The instructions that read the current cell before anything else, and so raise OutOfBounds whenever `dp` is out of range
(spec/60_exceptions.md R191). -/
def cellReaders : List Instr := [.inc, .dec, .loopBegin, .loopEnd, .out]

/-- `Effect s i t`: instruction `i` takes `s` to `t`. One constructor per case of the rules of spec/41_pointer.md to
spec/45_nop.md. -/
inductive Effect (s : State) : Instr → State → Prop where
  | right : Effect s .right (s.pointAt (addP s.ptrW s.dp 1)).advance
  | left : Effect s .left (s.pointAt (subP s.ptrW s.dp 1)).advance
  | inc (hdp : s.dp < s.dmem.size) : Effect s .inc (s.storeCell (add8 (s.dmem.get s.dp) 1#8)).advance
  | dec (hdp : s.dp < s.dmem.size) : Effect s .dec (s.storeCell (sub8 (s.dmem.get s.dp) 1#8)).advance
  | enterLoop (hdp : s.dp < s.dmem.size) (hv : s.dmem.get s.dp ≠ 0#8) : Effect s .loopBegin s.advance
  | skipLoop {p : Nat} (hdp : s.dp < s.dmem.size) (hv : s.dmem.get s.dp = 0#8)
      (hscan : scanForward s.imem s.ip = .ok p) : Effect s .loopBegin (s.jump p)
  | noClosing (hdp : s.dp < s.dmem.size) (hv : s.dmem.get s.dp = 0#8)
      (hscan : scanForward s.imem s.ip = .error .unmatchedBracket) :
      Effect s .loopBegin (s.recordFault .unmatchedBracket)
  | leaveLoop (hdp : s.dp < s.dmem.size) (hv : s.dmem.get s.dp = 0#8) : Effect s .loopEnd s.advance
  | repeatLoop {p : Nat} (hdp : s.dp < s.dmem.size) (hv : s.dmem.get s.dp ≠ 0#8)
      (hscan : scanBackward s.imem s.ip = .ok p) : Effect s .loopEnd (s.jump p)
  | noOpening (hdp : s.dp < s.dmem.size) (hv : s.dmem.get s.dp ≠ 0#8)
      (hscan : scanBackward s.imem s.ip = .error .unmatchedBracket) :
      Effect s .loopEnd (s.recordFault .unmatchedBracket)
  | out (hdp : s.dp < s.dmem.size) : Effect s .out (s.stage (s.dmem.get s.dp)).advance
  | inpEof (hr : s.input.head?.getD .eof = .eof) : Effect s .inp s.takeInput.advance
  | inpByte {b : Byte} (hr : s.input.head?.getD .eof = .byte b) (hdp : s.dp < s.dmem.size) :
      Effect s .inp (s.takeInput.storeCell b)
  | inpOutOfBounds {b : Byte} (hr : s.input.head?.getD .eof = .byte b) (hdp : s.dmem.size ≤ s.dp) :
      Effect s .inp (s.takeInput.recordFault .outOfBounds)
  | nop {op : Byte} : Effect s (.nop op) s.advance
  | cellOutOfBounds {i : Instr} (hi : i ∈ cellReaders) (hdp : s.dmem.size ≤ s.dp) :
      Effect s i (s.recordFault .outOfBounds)

/-- An instruction that reads the cell first raises OutOfBounds when there is none (spec/42_cell_arith.md R132;
spec/43_loop.md R148). -/
theorem exec_cellOutOfBounds {i : Instr} {s : State} (hi : i ∈ cellReaders) (hdp : s.dmem.size ≤ s.dp) :
    exec i s = .next (s.recordFault .outOfBounds) := by
  have hread : s.memRead s.cellAddr = .error .outOfBounds := State.memRead_of_le hdp
  simp only [cellReaders, List.mem_cons, List.not_mem_nil, or_false] at hi
  rcases hi with rfl | rfl | rfl | rfl | rfl
  · exact updateCell_of_le _ hdp
  · exact updateCell_of_le _ hdp
  · simp only [exec, execLoopBegin, hread, orRaise_error]
  · simp only [exec, execLoopEnd, hread, orRaise_error]
  · simp only [exec, execOut, hread, orRaise_error]

/-- Each clause of the relation is a case of the meaning. -/
theorem Effect.exec_eq {s t : State} {i : Instr} (h : Effect s i t) : exec i s = .next t := by
  cases h with
  | right => rfl
  | left => rfl
  | inc hdp => exact updateCell_of_lt _ hdp
  | dec hdp => exact updateCell_of_lt _ hdp
  | enterLoop hdp hv => simp [exec, execLoopBegin, State.memRead_of_lt hdp, hv]
  | skipLoop hdp hv hscan => simp [exec, execLoopBegin, State.memRead_of_lt hdp, hv, hscan]
  | noClosing hdp hv hscan => simp [exec, execLoopBegin, State.memRead_of_lt hdp, hv, hscan]
  | leaveLoop hdp hv => simp [exec, execLoopEnd, State.memRead_of_lt hdp, hv]
  | repeatLoop hdp hv hscan => simp [exec, execLoopEnd, State.memRead_of_lt hdp, hv, hscan]
  | noOpening hdp hv hscan => simp [exec, execLoopEnd, State.memRead_of_lt hdp, hv, hscan]
  | out hdp => simp [exec, execOut, State.memRead_of_lt hdp]
  | inpEof hr => simp [exec, execInp, State.inputRead_eq, hr]
  | inpByte hr hdp =>
    have hwrite (b : Byte) : s.takeInput.memWrite s.dp b = .ok (s.takeInput.storeCell b) :=
      State.memWrite_eq_storeCell (s := s.takeInput) hdp b
    simp [exec, execInp, State.inputRead_eq, hr, hwrite]
  | inpOutOfBounds hr hdp =>
    have hwrite (b : Byte) : s.takeInput.memWrite s.dp b = .error .outOfBounds :=
      State.memWrite_of_le (s := s.takeInput) hdp b
    simp [exec, execInp, State.inputRead_eq, hr, hwrite]
  | nop => rfl
  | cellOutOfBounds hi hdp => exact exec_cellOutOfBounds hi hdp

/-- Every instruction has an effect in every state. -/
theorem exists_effect (i : Instr) (s : State) : ∃ t, Effect s i t := by
  by_cases hi : i ∈ cellReaders ∧ s.dmem.size ≤ s.dp
  · exact ⟨_, .cellOutOfBounds hi.1 hi.2⟩
  have hdp (hmem : i ∈ cellReaders) : s.dp < s.dmem.size := Nat.lt_of_not_le fun hle => hi ⟨hmem, hle⟩
  cases i with
  | right => exact ⟨_, .right⟩
  | left => exact ⟨_, .left⟩
  | inc => exact ⟨_, .inc (hdp (by decide))⟩
  | dec => exact ⟨_, .dec (hdp (by decide))⟩
  | loopBegin =>
    by_cases hv : s.dmem.get s.dp = 0#8
    · cases hscan : scanForward s.imem s.ip with
      | ok p => exact ⟨_, .skipLoop (hdp (by decide)) hv hscan⟩
      | error k => exact ⟨_, .noClosing (hdp (by decide)) hv (scanForward_error hscan ▸ hscan)⟩
    · exact ⟨_, .enterLoop (hdp (by decide)) hv⟩
  | loopEnd =>
    by_cases hv : s.dmem.get s.dp = 0#8
    · exact ⟨_, .leaveLoop (hdp (by decide)) hv⟩
    · cases hscan : scanBackward s.imem s.ip with
      | ok p => exact ⟨_, .repeatLoop (hdp (by decide)) hv hscan⟩
      | error k => exact ⟨_, .noOpening (hdp (by decide)) hv (scanBackward_error hscan ▸ hscan)⟩
  | out => exact ⟨_, .out (hdp (by decide))⟩
  | inp =>
    cases hr : s.input.head?.getD .eof with
    | eof => exact ⟨_, .inpEof hr⟩
    | byte b =>
      rcases Nat.lt_or_ge s.dp s.dmem.size with hlt | hge
      · exact ⟨_, .inpByte hr hlt⟩
      · exact ⟨_, .inpOutOfBounds hr hge⟩
  | nop op => exact ⟨_, .nop⟩

/-- The relation is the graph of `exec`. -/
theorem exec_eq_next_iff {i : Instr} {s t : State} : exec i s = .next t ↔ Effect s i t := by
  refine ⟨fun h => ?_, Effect.exec_eq⟩
  obtain ⟨u, hu⟩ := exists_effect i s
  rwa [Host.Outcome.next.inj (h.symm.trans hu.exec_eq)]

/-- The inversion of a step, down to the clause of the instruction it executed. -/
theorem step_effect {s t : State} (h : step s = .next t) :
    s.fault = none ∧
    ((s.imem.size ≤ s.ip ∧ t = s.flush) ∨
     (s.ip < s.imem.size ∧ Effect s.flush (decodeByte (s.imem.get s.ip)) t)) := by
  simpa only [exec_eq_next_iff] using step_cases h

/-! ### The frame of each field -/

section Frame

variable {s t : State} {i : Instr} (h : Effect s i t)
include h

theorem Effect.imem_eq : t.imem = s.imem := by cases h <;> rfl

theorem Effect.config_eq : t.config = s.config := by cases h <;> rfl

theorem Effect.out_eq : t.out = s.out := by cases h <;> rfl

theorem Effect.dmem_size_eq : t.dmem.size = s.dmem.size := by cases h <;> rfl

/-- Only `>` and `<` move the data pointer. -/
theorem Effect.dp_eq (hright : i ≠ .right) (hleft : i ≠ .left) : t.dp = s.dp := by
  cases h with
  | right => exact absurd rfl hright
  | left => exact absurd rfl hleft
  | _ => rfl

/-- Only `.` stages a byte. -/
theorem Effect.pout_eq (hout : i ≠ .out) : t.pout = s.pout := by
  cases h with
  | out => exact absurd rfl hout
  | _ => rfl

/-- Only `,` asks the input stream, once. -/
theorem Effect.input_eq : t.input = if i = .inp then s.input.tail else s.input := by
  cases h with
  | cellOutOfBounds hi =>
    have hne : i ≠ .inp := by rintro rfl; exact absurd hi (by decide)
    rw [if_neg hne]; rfl
  | _ => rfl

/-- Only `+`, `-` and `,` store to data memory. -/
theorem Effect.dmem_eq (hinc : i ≠ .inc) (hdec : i ≠ .dec) (hinp : i ≠ .inp) : t.dmem = s.dmem := by
  cases h with
  | inc => exact absurd rfl hinc
  | dec => exact absurd rfl hdec
  | inpByte => exact absurd rfl hinp
  | _ => rfl

/-- Whatever is stored is stored in the current cell. -/
theorem Effect.dmem_get_of_ne (hwf : s.dmem.wf) {a : Nat} (ha : a ≠ s.dp) : t.dmem.get a = s.dmem.get a := by
  have hput (v : Byte) : (s.dmem.put s.dp v).get a = s.dmem.get a := by rw [Memory.get_put hwf, if_neg ha]
  cases h with
  | inc => exact hput _
  | dec => exact hput _
  | inpByte => exact hput _
  | _ => rfl

/-- The fault record is kept, or written by a raise, which changes nothing else but the stream; only a bracket raises
UnmatchedBracket (spec/60_exceptions.md R196, R200). -/
theorem Effect.fault_cases :
    t.fault = s.fault ∨
    ∃ k answers, t = State.recordFault { s with input := answers } k ∧
      (i ≠ .loopBegin → i ≠ .loopEnd → k = .outOfBounds) := by
  cases h with
  | noClosing => exact .inr ⟨_, _, rfl, fun hne _ => absurd rfl hne⟩
  | noOpening => exact .inr ⟨_, _, rfl, fun _ hne => absurd rfl hne⟩
  | inpOutOfBounds => exact .inr ⟨_, _, rfl, fun _ _ => rfl⟩
  | cellOutOfBounds => exact .inr ⟨_, _, rfl, fun _ _ => rfl⟩
  | _ => exact .inl rfl

/-- No clause reads the output stream. -/
theorem Effect.withOut (o : List Byte) : Effect { s with out := o } i { t with out := o } := by
  cases h with
  | right => exact .right
  | left => exact .left
  | inc hdp => exact .inc hdp
  | dec hdp => exact .dec hdp
  | enterLoop hdp hv => exact .enterLoop hdp hv
  | skipLoop hdp hv hscan => exact .skipLoop hdp hv hscan
  | noClosing hdp hv hscan => exact .noClosing hdp hv hscan
  | leaveLoop hdp hv => exact .leaveLoop hdp hv
  | repeatLoop hdp hv hscan => exact .repeatLoop hdp hv hscan
  | noOpening hdp hv hscan => exact .noOpening hdp hv hscan
  | out hdp => exact .out hdp
  | inpEof hr => exact .inpEof hr
  | inpByte hr hdp => exact .inpByte hr hdp
  | inpOutOfBounds hr hdp => exact .inpOutOfBounds hr hdp
  | nop => exact .nop
  | cellOutOfBounds hi hdp => exact .cellOutOfBounds hi hdp

end Frame

end Sys2Proof.Machine
end

section
/-! SUPPORT. The invariant, operation by operation: the register writes, the flush, an instruction, a step, a load, and so
every reachable state. -/

namespace Sys2Proof.Machine

section RegisterWrites

variable {s : State} (h : s.Inv)
include h

theorem State.Inv.advance (hf : s.fault = none) (hlt : s.ip < s.imem.size) : s.advance.Inv :=
  { h with
    ip_le := hlt
    fault_at_ip := fun r hr => by rw [State.advance_fault, hf] at hr; cases hr }

theorem State.Inv.jump (hf : s.fault = none) {p : Nat} (hp : p ≤ s.imem.size) : (s.jump p).Inv :=
  { h with
    ip_le := hp
    fault_at_ip := fun r hr => by rw [State.jump_fault, hf] at hr; cases hr }

theorem State.Inv.pointAt {v : Nat} (hv : v < 2 ^ s.ptrW) : (s.pointAt v).Inv :=
  { h with dp_lt := hv }

theorem State.Inv.stage (hf : s.fault = none) (v : Byte) : (s.stage v).Inv :=
  { h with fault_at_ip := fun r hr => by rw [State.stage_fault, hf] at hr; cases hr }

theorem State.Inv.storeCell (hdp : s.dp < s.dmem.size) (v : Byte) : (s.storeCell v).Inv :=
  { h with dmem_wf := Memory.put_wf h.dmem_wf hdp v }

theorem State.Inv.takeInput : s.takeInput.Inv :=
  { h with }

/-- A raise meets what the invariant asks of a record: it is made at an instruction, after the flush. -/
theorem State.Inv.recordFault (hp : s.pout = 0#8) (hlt : s.ip < s.imem.size) (k : FaultKind) : (s.recordFault k).Inv :=
  { h with
    fault_at_ip := fun r hr => by
      obtain rfl := Option.some.inj hr
      exact ⟨rfl, hlt, hp⟩ }

/-- The flush emits no zero byte (spec/44_io.md R161). -/
theorem State.Inv.flush : s.flush.Inv := by
  rw [State.flush_eq]
  exact
    { h with
      fault_at_ip := fun r hr => by
        obtain ⟨hfip, hlt, -⟩ := h.fault_at_ip r hr
        exact ⟨hfip, hlt, rfl⟩
      out_nonzero := fun b hb => (List.mem_append.mp hb).elim (h.out_nonzero b) s.pending_ne_zero }

end RegisterWrites

/-- An instruction of the program, executed after the flush, keeps the invariant. -/
theorem Effect.inv {s t : State} {i : Instr} (h : Effect s i t) (hinv : s.Inv) (hf : s.fault = none) (hp : s.pout = 0#8)
    (hlt : s.ip < s.imem.size) : t.Inv := by
  cases h with
  | right => exact (hinv.pointAt (addP_lt ..)).advance hf hlt
  | left => exact (hinv.pointAt (subP_lt ..)).advance hf hlt
  | inc hdp => exact (hinv.storeCell hdp _).advance hf hlt
  | dec hdp => exact (hinv.storeCell hdp _).advance hf hlt
  | enterLoop => exact hinv.advance hf hlt
  | skipLoop _ _ hscan => exact hinv.jump hf (scanForward_bounds hscan).2
  | noClosing => exact hinv.recordFault hp hlt _
  | leaveLoop => exact hinv.advance hf hlt
  | repeatLoop _ _ hscan => exact hinv.jump hf ((scanBackward_bounds hscan).trans hlt).le
  | noOpening => exact hinv.recordFault hp hlt _
  | out => exact (hinv.stage hf _).advance hf hlt
  | inpEof => exact hinv.takeInput.advance hf hlt
  | inpByte _ hdp => exact hinv.takeInput.storeCell hdp _
  | inpOutOfBounds => exact hinv.takeInput.recordFault hp hlt _
  | nop => exact hinv.advance hf hlt
  | cellOutOfBounds => exact hinv.recordFault hp hlt _

theorem State.Inv.step {s t : State} (hinv : s.Inv) (h : step s = .next t) : t.Inv := by
  obtain ⟨hf, ⟨-, rfl⟩ | ⟨hlt, heffect⟩⟩ := step_effect h
  · exact hinv.flush
  · exact heffect.inv hinv.flush (by simpa using hf) s.flush_pout (by simpa using hlt)

theorem State.create_inv {c : Config} (hc : c.valid) (input : List InputAnswer) : (State.create c input).Inv where
  config_valid := hc
  imem_wf := Memory.create_wf _
  dmem_wf := Memory.create_wf _
  plen_le := le_rfl
  ip_le := Nat.zero_le _
  dp_lt := Nat.two_pow_pos _
  fault_at_ip := fun _ hr => nomatch hr
  out_nonzero := fun _ hb => nomatch hb

/-! ### Loads, and reachable states -/

theorem loadProgram_of_fits {p : List Byte} {s : State} (hf : s.fault = none) (hlen : p.length ≤ s.imemCap) :
    loadProgram p s = (.ok, { s with imem := Memory.ofBytes p, ip := 0, dp := 0 }) :=
  if_pos ⟨hf, hlen⟩

theorem loadProgram_refused {p : List Byte} {s : State} (h : ¬(s.fault = none ∧ p.length ≤ s.imemCap)) :
    loadProgram p s = (.refused, s) :=
  if_neg h

theorem State.Inv.loadProgram {s : State} (hinv : s.Inv) (p : List Byte) : (loadProgram p s).2.Inv := by
  by_cases h : s.fault = none ∧ p.length ≤ s.imemCap
  · obtain ⟨hf, hlen⟩ := h
    rw [loadProgram_of_fits hf hlen]
    exact
      { hinv with
        imem_wf := Memory.ofBytes_wf p
        plen_le := by simpa using hlen
        ip_le := Nat.zero_le _
        dp_lt := Nat.two_pow_pos _
        fault_at_ip := fun r hr => by rw [hf] at hr; cases hr }
  · rwa [loadProgram_refused h]

/-- `step` as a host operation answers the step's next state, or leaves a faulted machine as it is. -/
theorem hostStep_cases (s : State) : step s = .next (HostOp.step.apply s) ∨ HostOp.step.apply s = s := by
  cases h : step s with
  | next t => left; simp only [HostOp.apply, stepCall_of_next h]
  | fault f => right; simp only [HostOp.apply, stepCall, h]
  | refused r => right; simp only [HostOp.apply, stepCall, h]

theorem State.Inv.hostOp {s : State} (hinv : s.Inv) (o : HostOp) : (o.apply s).Inv := by
  cases o with
  | load p => exact hinv.loadProgram p
  | step =>
    rcases hostStep_cases s with h | h
    · exact hinv.step h
    · rwa [h]

theorem Reachable.inv {s : State} (h : Reachable s) : s.Inv := by
  induction h with
  | create c input hc => exact State.create_inv hc input
  | op o _ _ ih => exact ih.hostOp o

end Sys2Proof.Machine
end

section
/-! The statements about the machine's state (spec/10_state.md), settled. -/

namespace Sys2Proof.Machine

/-- Settles O45: the flush keeps the invariant, and so does every clause of the executed instruction. -/
theorem stepKeepsInvariant : Obligations.StepKeepsInvariant := fun _ _ hinv h => hinv.step h

/-- Settles O44: memories are canonical when created, and every register is 0. -/
theorem creationMeetsInvariant : Obligations.CreationMeetsInvariant :=
  ⟨fun _ input hc => State.create_inv hc input, State.create_inv (by decide) []⟩

/-- Settles O47: every reachable state meets the invariant, and the program's length fits the pointer. -/
theorem reachableInstructionPointerStaysInProgram : Obligations.ReachableInstructionPointerStaysInProgram := by
  intro s hs
  obtain ⟨-, hcap, -⟩ : _ ∧ s.imemCap < 2 ^ s.ptrW ∧ _ := hs.inv.config_valid
  have hplen := hs.inv.plen_le
  exact ⟨hs.inv.ip_le, hplen, hcap, fun hlt => by omega⟩

/-! ### The unbounded pointer -/

/-- A number of the window of spec/10_state.md R25, reduced modulo the pointer's range, lies inside the memory exactly when
the number itself does: a negative one is taken to the top of the range, past the memory. -/
theorem emod_lt_size_iff {z range : Int} {size : Nat} (hlo : size - range ≤ z) (hhi : z < range) :
    z % range < size ↔ 0 ≤ z ∧ z < size := by
  rcases lt_or_ge z 0 with hneg | hpos
  · rw [← Int.add_emod_right, Int.emod_eq_of_lt (by omega) (by omega)]; omega
  · rw [Int.emod_eq_of_lt hpos hhi]; omega

/-- Settles O9: on integers, `>` and `<` are addition and subtraction reduced modulo `2^PTR_W`. -/
theorem unboundedPointerAgreesInWindow : Obligations.UnboundedPointerAgreesInWindow := by
  intro s z _ hlo hhi hdp
  refine ⟨?_, ⟨_, Effect.right.exec_eq, ?_⟩, ⟨_, Effect.left.exec_eq, ?_⟩⟩
  · rw [← Int.ofNat_lt, hdp]
    exact emod_lt_size_iff hlo (by omega)
  · simp [addP_cast, hdp]
  · simp [subP_cast, hdp]

/-! ### The two streams -/

/-- Settles O26: the flush appends what was pending, and no clause of an instruction reads the stream. -/
theorem outputIsNeverReadBack : Obligations.OutputIsNeverReadBack := by
  intro s t o h
  obtain ⟨hf, ⟨hend, rfl⟩ | ⟨hlt, heffect⟩⟩ := step_effect h
  · refine ⟨s.pending, s.flush_out, ?_⟩
    rw [step_of_le (s := { s with out := o }) hf hend, s.flush_withOut]
  · refine ⟨s.pending, heffect.out_eq.trans s.flush_out, ?_⟩
    rw [step_of_lt (s := { s with out := o }) hf hlt, s.flush_withOut]
    exact (heffect.withOut _).exec_eq

/-- Settles O27: the instruction at `ip` is `,` exactly when its byte is 0x2C, and only `,` takes an answer. -/
theorem onlyInpAsksForInput : Obligations.OnlyInpAsksForInput := by
  intro s t h
  obtain ⟨-, ⟨hend, rfl⟩ | ⟨hlt, heffect⟩⟩ := step_effect h
  · rw [if_neg fun hinp => absurd hinp.1 (Nat.not_lt.mpr hend), State.flush_input]
  · simp [heffect.input_eq, decodeByte_eq_inp_iff, hlt]

/-- Settles O22 by the two cases of a request. -/
theorem inputStreamAnswersInOrder : Obligations.InputStreamAnswersInOrder :=
  fun _ => ⟨State.inputRead_nil, fun _ _ => State.inputRead_cons⟩

/-! ### The frames -/

/-- Settles O40, field by field from the frame of an effect. -/
theorem frameOfNonStoringInstructions : Obligations.FrameOfNonStoringInstructions := by
  intro i s t hi h
  have heffect := exec_eq_next_iff.mp h
  have hne : i ≠ .inc ∧ i ≠ .dec ∧ i ≠ .inp := by
    rcases hi with rfl | rfl | rfl | rfl | rfl | ⟨op, rfl⟩ <;> simp
  obtain ⟨hinc, hdec, hinp⟩ := hne
  have hdmem := heffect.dmem_eq hinc hdec hinp
  have hinput : t.input = s.input := by rw [heffect.input_eq, if_neg hinp]
  refine ⟨fun a => by rw [hdmem], fun a => by rw [heffect.imem_eq], heffect.config_eq,
    congrArg Memory.size heffect.imem_eq, hinput, heffect.out_eq, heffect.dp_eq, heffect.pout_eq,
    heffect.fault_cases.imp_right ?_⟩
  rintro ⟨k, _, rfl, -⟩
  exact ⟨⟨k, rfl⟩, rfl, rfl, rfl⟩

/-- Settles O41, field by field from the frame of an effect. -/
theorem frameOfStoringInstructions : Obligations.FrameOfStoringInstructions := by
  intro i s t hi hwf h
  have heffect := exec_eq_next_iff.mp h
  have hne : i ≠ .right ∧ i ≠ .left ∧ i ≠ .out ∧ i ≠ .loopBegin ∧ i ≠ .loopEnd := by
    rcases hi with rfl | rfl | rfl <;> simp
  obtain ⟨hright, hleft, hout, hbegin, hend⟩ := hne
  refine ⟨fun a ha => Memory.read_congr heffect.dmem_size_eq (heffect.dmem_get_of_ne hwf ha),
    fun a => by rw [heffect.imem_eq], heffect.config_eq, congrArg Memory.size heffect.imem_eq, heffect.dp_eq hright hleft,
    heffect.pout_eq hout, heffect.out_eq, fun hinp => by rw [heffect.input_eq, if_neg hinp],
    heffect.fault_cases.imp_right ?_⟩
  rintro ⟨k, _, rfl, hkind⟩
  obtain rfl := hkind hbegin hend
  exact ⟨rfl, rfl, fun _ => rfl⟩

end Sys2Proof.Machine
end

section
/-! SUPPORT. The canonical list of cells, read back: which cells it lists, and that its reads determine it. -/

namespace Sys2Proof.Machine

/-- A byte that reads as nonzero is listed. -/
theorem mem_of_cellsGet_ne_zero {cs : List Host.Cell} {a : Nat} (h : cellsGet cs a ≠ 0#8) : (a, cellsGet cs a) ∈ cs := by
  induction cs with
  | nil => exact absurd rfl h
  | cons d rest ih =>
    obtain ⟨x, w⟩ := d
    rw [cellsGet_cons] at h ⊢
    split_ifs at h ⊢ with hx
    · subst hx; exact List.mem_cons_self
    · exact List.mem_cons_of_mem _ (ih h)

/-- A listed byte is read at its address: the addresses rise, so no earlier cell hides it. -/
theorem cellsGet_of_mem {cs : List Host.Cell} (h : Rising cs) {c : Host.Cell} (hc : c ∈ cs) : cellsGet cs c.1 = c.2 := by
  induction cs with
  | nil => cases hc
  | cons d rest ih =>
    obtain ⟨hhead, htail⟩ := List.pairwise_cons.mp h
    rw [cellsGet_cons]
    rcases List.mem_cons.mp hc with rfl | hrest
    · exact if_pos rfl
    · rw [if_neg (hhead c hrest).ne', ih htail hrest]

/-- The cells a canonical memory lists are its nonzero bytes. -/
theorem Memory.mem_cells_iff {m : Memory} (h : m.wf) (c : Host.Cell) :
    c ∈ m.cells ↔ m.get c.1 = c.2 ∧ c.2 ≠ 0#8 := by
  obtain ⟨hrising, hlisted⟩ := h
  constructor
  · exact fun hc => ⟨cellsGet_of_mem hrising hc, (hlisted c hc).2⟩
  · rintro ⟨hget, hv⟩
    have hmem : (c.1, m.get c.1) ∈ m.cells := mem_of_cellsGet_ne_zero (hget.trans_ne hv)
    rwa [hget] at hmem

/-- Lists with rising addresses and the same members are equal. -/
theorem Rising.eq_of_mem_iff {cs cs' : List Host.Cell} (h : Rising cs) (h' : Rising cs')
    (hmem : ∀ c, c ∈ cs ↔ c ∈ cs') : cs = cs' := by
  have nodup {ds : List Host.Cell} (hds : Rising ds) : ds.Nodup :=
    hds.imp fun hlt heq => hlt.ne (congrArg Prod.fst heq)
  have hperm : cs.Perm cs' := (List.perm_ext_iff_of_nodup (nodup h) (nodup h')).mpr hmem
  exact hperm.eq_of_pairwise (fun _ _ _ _ hlt hgt => absurd hlt hgt.asymm) h h'

/-- A read tells the byte, at every address: below the length the byte itself, above it nothing is stored. -/
theorem Memory.get_eq_of_read_eq {m m' : Memory} (h : m.wf) (h' : m'.wf) (hsize : m.size = m'.size) {a : Nat}
    (hread : m.read a = m'.read a) : m.get a = m'.get a := by
  rcases Nat.lt_or_ge a m.size with hlt | hge
  · rw [Memory.read_of_lt hlt, Memory.read_of_lt (hsize ▸ hlt)] at hread
    exact Except.ok.inj hread
  · rw [Memory.get_of_size_le h hge, Memory.get_of_size_le h' (hsize ▸ hge)]

end Sys2Proof.Machine
end

section
/-! SUPPORT. Two machines that differ in data memory outside the current cell, and what every number of steps keeps. -/

namespace Sys2Proof.Machine

/-- An instruction that takes `s` to `t` does the same with the data memory `m`, if `m` has the length and current cell of
`s`: every field but data memory ends as in `t`, and so does the current cell (spec/20_memory.md R59). -/
theorem Effect.withDmem {s t : State} {i : Instr} (h : Effect s i t) {m : Memory} (hwf : s.dmem.wf) (hwf' : m.wf)
    (hsize : m.size = s.dmem.size) (hcell : m.get s.dp = s.dmem.get s.dp) :
    ∃ m', Effect { s with dmem := m } i { t with dmem := m' } ∧ m'.get s.dp = t.dmem.get s.dp := by
  have hin (hdp : s.dp < s.dmem.size) : s.dp < m.size := hsize ▸ hdp
  have hput (v : Byte) : (m.put s.dp v).get s.dp = (s.dmem.put s.dp v).get s.dp := by
    rw [Memory.get_put hwf', Memory.get_put hwf, if_pos rfl, if_pos rfl]
  cases h with
  | right => exact ⟨m, .right, hcell⟩
  | left => exact ⟨m, .left, hcell⟩
  | inc hdp => exact ⟨_, hcell ▸ .inc (hin hdp), hput _⟩
  | dec hdp => exact ⟨_, hcell ▸ .dec (hin hdp), hput _⟩
  | enterLoop hdp hv => exact ⟨m, .enterLoop (hin hdp) (hcell ▸ hv), hcell⟩
  | skipLoop hdp hv hscan => exact ⟨m, .skipLoop (hin hdp) (hcell.trans hv) hscan, hcell⟩
  | noClosing hdp hv hscan => exact ⟨m, .noClosing (hin hdp) (hcell.trans hv) hscan, hcell⟩
  | leaveLoop hdp hv => exact ⟨m, .leaveLoop (hin hdp) (hcell.trans hv), hcell⟩
  | repeatLoop hdp hv hscan => exact ⟨m, .repeatLoop (hin hdp) (hcell ▸ hv) hscan, hcell⟩
  | noOpening hdp hv hscan => exact ⟨m, .noOpening (hin hdp) (hcell ▸ hv) hscan, hcell⟩
  | out hdp => exact ⟨m, hcell ▸ .out (hin hdp), hcell⟩
  | inpEof hr => exact ⟨m, .inpEof hr, hcell⟩
  | inpByte hr hdp => exact ⟨_, .inpByte hr (hin hdp), hput _⟩
  | inpOutOfBounds hr hdp => exact ⟨m, .inpOutOfBounds hr (hsize.trans_le hdp), hcell⟩
  | nop => exact ⟨m, .nop, hcell⟩
  | cellOutOfBounds hi hdp => exact ⟨m, .cellOutOfBounds hi (hsize.trans_le hdp), hcell⟩

/-- A step leaves instruction memory as it is (spec/20_memory.md R68). -/
theorem step_imem_eq {s t : State} (h : step s = .next t) : t.imem = s.imem := by
  obtain ⟨-, ⟨-, rfl⟩ | ⟨-, heffect⟩⟩ := step_effect h
  · exact s.flush_imem
  · exact heffect.imem_eq.trans s.flush_imem

/-- A step leaves the parameters as they are (spec/00_scope.md R5). -/
theorem step_config_eq {s t : State} (h : step s = .next t) : t.config = s.config := by
  have hflush : s.flush.config = s.config := by rw [State.flush_eq]; rfl
  obtain ⟨-, ⟨-, rfl⟩ | ⟨-, heffect⟩⟩ := step_effect h
  · exact hflush
  · exact heffect.config_eq.trans hflush

/-- More than one step that answer a next state begin with one that does. -/
theorem stepN_succ_cases {n : Nat} {s t : State} (h : stepN (n + 1) s = .next t) :
    ∃ u, step s = .next u ∧ stepN n u = .next t := by
  simp only [stepN] at h
  cases hstep : step s with
  | next u => rw [hstep] at h; exact ⟨u, rfl, h⟩
  | fault f => rw [hstep] at h; cases h
  | refused r => rw [hstep] at h; cases h

/-- What every step keeps, any number of steps keeps. -/
theorem stepN_keeps {P : State → Prop} (hP : ∀ s t, P s → step s = .next t → P t) {n : Nat} {s t : State} (hs : P s)
    (h : stepN n s = .next t) : P t := by
  induction n generalizing s with
  | zero => rwa [← Host.Outcome.next.inj h]
  | succ n ih =>
    obtain ⟨u, hu, hrest⟩ := stepN_succ_cases h
    exact ih (hP s u hs hu) hrest

end Sys2Proof.Machine
end

section
/-! The statements about the memories (spec/20_memory.md), settled. -/

namespace Sys2Proof.Machine

/-- Settles O42: the effect of the instruction on the first machine is its effect on the second. -/
theorem onlyCurrentCellIsUsed : Obligations.OnlyCurrentCellIsUsed := by
  intro i s m hwf hwf' hsize hcell
  obtain ⟨t, ht⟩ := exists_effect i s
  obtain ⟨m', hu, hcell'⟩ := ht.withDmem hwf hwf' hsize hcell
  exact ⟨t, _, ht.exec_eq, hu.exec_eq, rfl, hcell'⟩

/-- Settles O43, by induction on the number of steps. -/
theorem stepsNeverChangeProgramOrParameters : Obligations.StepsNeverChangeProgramOrParameters := by
  intro n s t h
  refine stepN_keeps (P := fun u => u.imem = s.imem ∧ u.config = s.config) ?_ ⟨rfl, rfl⟩ h
  rintro u v ⟨himem, hconfig⟩ hstep
  exact ⟨(step_imem_eq hstep).trans himem, (step_config_eq hstep).trans hconfig⟩

/-- Settles O5: at or above the length both primitives fault, below it they are `get` and `put`. -/
theorem memoryAccessContract : Obligations.MemoryAccessContract := by
  intro m a v hwf
  refine ⟨fun hge => ⟨Memory.read_of_le hge, Memory.write_of_le hge v⟩, fun hlt => ⟨Memory.read_of_lt hlt, ?_⟩⟩
  refine ⟨m.put a v, Memory.write_of_lt hlt v, rfl, Memory.put_wf hwf hlt v, ?_, fun b hb => ?_⟩
  · rw [Memory.read_of_lt (m := m.put a v) hlt, Memory.get_put hwf, if_pos rfl]
  · exact Memory.read_congr rfl (by rw [Memory.get_put hwf, if_neg hb])

/-- Settles O6: the reads give the bytes, and the nonzero bytes are the members of the sorted list. -/
theorem memoryIsItsReads : Obligations.MemoryIsItsReads := by
  intro m m' h h' hsize hread
  have hget (a : Nat) : m.get a = m'.get a := Memory.get_eq_of_read_eq h h' hsize (hread a)
  have hcells : m.cells = m'.cells :=
    Rising.eq_of_mem_iff h.1 h'.1 fun c => by rw [Memory.mem_cells_iff h, Memory.mem_cells_iff h', hget]
  change Memory.mk m.size m.cells = Memory.mk m'.size m'.cells
  rw [hsize, hcells]

/-- Settles O4: a fresh memory lists no cell, and with no byte every address is at or above the length. -/
theorem freshMemoryReadsZero : Obligations.FreshMemoryReadsZero := by
  intro n a
  have hempty : (Memory.create 0).size ≤ a := a.zero_le
  refine ⟨rfl, fun hlt => ?_, fun hge => Memory.read_of_le hge,
    fun v => ⟨Memory.read_of_le hempty, Memory.write_of_le hempty v⟩⟩
  rw [Memory.read_of_lt (m := Memory.create n) hlt, Memory.create_get]

end Sys2Proof.Machine
end

section
/-! The statements about the encoding (spec/30_encoding.md), settled: byte and instruction undo each other one at a time, and
a program is one byte per instruction. -/

namespace Sys2Proof.Machine

/-! ### One byte, one instruction -/

theorem wordRoundTrip : ∀ i, Laws.WordRoundTrip.Statement i
  | .right => Laws.WordRoundTrip.right
  | .left => Laws.WordRoundTrip.left
  | .inc => Laws.WordRoundTrip.inc
  | .dec => Laws.WordRoundTrip.dec
  | .loopBegin => Laws.WordRoundTrip.loopBegin
  | .loopEnd => Laws.WordRoundTrip.loopEnd
  | .out => Laws.WordRoundTrip.out
  | .inp => Laws.WordRoundTrip.inp
  | .nop op => Laws.WordRoundTrip.nop op

theorem decodeByte_encodeByte {i : Instr} (h : i.wellFormed = true) : decodeByte (encodeByte i) = i :=
  congrArg Prod.fst (Except.ok.inj (wordRoundTrip i h []))

theorem nop_wellFormed_iff {op : Byte} : (Instr.nop op).wellFormed = true ↔ op ∉ opcodeBytes := by
  simp [Instr.wellFormed]

theorem decodeByte_of_notMem {op : Byte} (h : op ∉ opcodeBytes) : decodeByte op = .nop op :=
  decodeByte_encodeByte (nop_wellFormed_iff.mpr h)

theorem decodeByte_wellFormed (op : Byte) : (decodeByte op).wellFormed = true := by
  by_cases hop : op ∈ opcodeBytes
  · exact (by decide : ∀ b ∈ opcodeBytes, (decodeByte b).wellFormed = true) op hop
  · rw [decodeByte_of_notMem hop]
    exact nop_wellFormed_iff.mpr hop

/-! ### Whole programs -/

theorem decodeProgram_eq_map (bs : List Byte) : decodeProgram bs = bs.map decodeByte := by
  induction bs with
  | nil => rfl
  | cons op rest ih => rw [decodeProgram, ih, List.map_cons]

theorem encodeProgram_eq_map (is : List Instr) : encodeProgram is = is.map encodeByte := by
  induction is with
  | nil => rfl
  | cons i rest ih => rw [encodeProgram, ih, encode, List.singleton_append, List.map_cons]

theorem decodeProgram_encodeProgram {is : List Instr} (h : ∀ i ∈ is, i.wellFormed = true) :
    decodeProgram (encodeProgram is) = is := by
  rw [encodeProgram_eq_map, decodeProgram_eq_map, List.map_map]
  exact (List.map_congr_left fun i hi => decodeByte_encodeByte (h i hi)).trans (List.map_id is)

theorem encodeProgram_decodeProgram (bs : List Byte) : encodeProgram (decodeProgram bs) = bs := by
  rw [decodeProgram_eq_map, encodeProgram_eq_map, List.map_map]
  exact List.map_id'' encodeByte_decodeByte bs

theorem wellFormed_of_mem_decodeProgram {bs : List Byte} {i : Instr} (h : i ∈ decodeProgram bs) :
    i.wellFormed = true := by
  rw [decodeProgram_eq_map] at h
  obtain ⟨op, -, rfl⟩ := List.mem_map.mp h
  exact decodeByte_wellFormed op

/-! ### The statements -/

/-- Settles O3: both programs are maps, so the round trips of one byte and of one instruction carry over to lists. -/
theorem programsDecodeAndEncodeAgree : Obligations.ProgramsDecodeAndEncodeAgree := by
  refine ⟨fun is => decodeProgram_encodeProgram,
    fun bs => ⟨encodeProgram_decodeProgram bs, fun i => wellFormed_of_mem_decodeProgram⟩, fun bs k op hop => ?_⟩
  rw [decodeProgram_eq_map, List.getElem?_map, hop, Option.map_some]

/-- Settles O1: a byte outside the opcode map is the encoding of its own NOP. -/
theorem decoderComparesWholeByte : Obligations.DecoderComparesWholeByte :=
  ⟨rfl, rfl, rfl, rfl, rfl, rfl, rfl, rfl, fun op hop => ⟨op, decodeByte_of_notMem hop⟩⟩

end Sys2Proof.Machine
end

section
/-! SUPPORT. One call of `step()` as the host sees it, said once: a relation with one clause per way a call can end, which holds
exactly when `stepCall` answers so; the last call of a run; and where a step stages a byte. -/

namespace Sys2Proof.Machine

/-! ### The staged byte -/

theorem decodeByte_eq_out_iff {op : Byte} : decodeByte op = .out ↔ op = 0x2E#8 :=
  ⟨fun h => by rw [← encodeByte_decodeByte op, h]; rfl, fun h => by rw [h]; rfl⟩

/-- A `.` inside data memory stages the current cell, and nothing else stages (spec/44_io.md R160). -/
theorem Effect.pout_eq_ite {s t : State} {i : Instr} (h : Effect s i t) :
    t.pout = if i = .out ∧ s.dp < s.dmem.size then s.dmem.get s.dp else s.pout := by
  by_cases hout : i = .out
  · subst hout
    cases h with
    | out hdp => rw [if_pos ⟨rfl, hdp⟩]; rfl
    | cellOutOfBounds _ hdp => rw [if_neg fun hin => absurd hin.2 (Nat.not_lt.mpr hdp)]; rfl
  · rw [if_neg fun hin => hout hin.1, h.pout_eq hout]

/-! ### How one call ends -/

/-- A machine with no fault recorded steps to a next state. -/
theorem exists_step {s : State} (hf : s.fault = none) : ∃ t, step s = .next t := by
  rcases Nat.lt_or_ge s.ip s.imem.size with hlt | hge
  · obtain ⟨t, ht⟩ := exists_effect (decodeByte (s.imem.get s.ip)) s.flush
    exact ⟨t, (step_of_lt hf hlt).trans ht.exec_eq⟩
  · exact ⟨s.flush, step_of_le hf hge⟩

/-- `CallEffect s res t`: a call of `step()` on `s` returns `res` and leaves `t`. One constructor per case of
spec/40_step_cycle.md R101, R105, R109 and spec/60_exceptions.md R195. -/
inductive CallEffect (s : State) : StepResult → State → Prop where
  | absorbed {r : FaultRecord} (hf : s.fault = some r) : CallEffect s (.fault r) s
  | halted (hf : s.fault = none) (hend : s.imem.size ≤ s.ip) : CallEffect s .halted s.flush
  | raised {t : State} {r : FaultRecord} (hf : s.fault = none) (hlt : s.ip < s.imem.size) (hstep : step s = .next t)
      (ht : t.fault = some r) : CallEffect s (.fault r) t
  | cont {t : State} (hf : s.fault = none) (hlt : s.ip < s.imem.size) (hstep : step s = .next t) (ht : t.fault = none) :
      CallEffect s .cont t

/-- Each clause of the relation is an answer of `stepCall`. -/
theorem CallEffect.stepCall_eq {s t : State} {res : StepResult} (h : CallEffect s res t) :
    stepCall s = some (res, t) := by
  cases h with
  | absorbed hf => exact stepCall_of_fault hf
  | halted hf hend => rw [stepCall_of_next (step_of_le hf hend), resultOf_halted (by simpa using hf) hend]
  | raised _ _ hstep ht => rw [stepCall_of_next hstep, resultOf_fault ht]
  | cont _ hlt hstep ht => rw [stepCall_of_next hstep, resultOf_cont ht hlt]

/-- A call always returns (spec/40_step_cycle.md R110). -/
theorem exists_callEffect (s : State) : ∃ res t, CallEffect s res t := by
  cases hf : s.fault with
  | some r => exact ⟨_, _, .absorbed hf⟩
  | none =>
    rcases Nat.lt_or_ge s.ip s.imem.size with hlt | hge
    · obtain ⟨t, hstep⟩ := exists_step hf
      cases ht : t.fault with
      | none => exact ⟨_, _, .cont hf hlt hstep ht⟩
      | some r => exact ⟨_, _, .raised hf hlt hstep ht⟩
    · exact ⟨_, _, .halted hf hge⟩

/-- The relation is the graph of `stepCall`. -/
theorem stepCall_eq_some_iff {s t : State} {res : StepResult} : stepCall s = some (res, t) ↔ CallEffect s res t := by
  refine ⟨fun h => ?_, CallEffect.stepCall_eq⟩
  obtain ⟨res', t', h'⟩ := exists_callEffect s
  obtain ⟨rfl, rfl⟩ := Prod.mk.inj (Option.some.inj (h.symm.trans h'.stepCall_eq))
  exact h'

/-- FAULT is returned exactly when a fault is recorded after the call. -/
theorem CallEffect.fault_iff {s t : State} {res : StepResult} (h : CallEffect s res t) (r : FaultRecord) :
    res = .fault r ↔ t.fault = some r := by
  cases h with
  | absorbed hf => simp [hf]
  | halted hf => simp [hf]
  | raised _ _ _ ht => simp [ht]
  | cont _ _ _ ht => simp [ht]

/-- The invariant survives a call. -/
theorem CallEffect.inv {s t : State} {res : StepResult} (h : CallEffect s res t) (hinv : s.Inv) : t.Inv := by
  cases h with
  | absorbed => exact hinv
  | halted => exact hinv.flush
  | raised _ _ hstep => exact hinv.step hstep
  | cont _ _ hstep => exact hinv.step hstep

/-! ### Many steps, and runs -/

/-- A step that changes nothing changes nothing however often it is taken. -/
theorem stepN_of_fixed {s : State} (h : step s = .next s) (n : Nat) : stepN n s = .next s := by
  induction n with
  | zero => rfl
  | succ n ih => rw [stepN, h]; exact ih

/-- A run ends with a call that does not return CONTINUE, on a state that meets whatever calls keep
(spec/40_step_cycle.md R112). -/
theorem run_last_call {P : State → Prop} (hP : ∀ s res t, P s → CallEffect s res t → P t) {fuel : Nat} {s t : State}
    {res : StepResult} (hs : P s) (h : run fuel s = some (res, t)) : res ≠ .cont ∧ ∃ u, P u ∧ CallEffect u res t := by
  induction fuel generalizing s with
  | zero => cases h
  | succ fuel ih =>
    obtain ⟨res', u, hcall⟩ := exists_callEffect s
    rw [run, hcall.stepCall_eq] at h
    cases res' with
    | cont => exact ih (hP _ _ _ hs hcall) h
    | halted => cases h; exact ⟨nofun, s, hs, hcall⟩
    | fault r => cases h; exact ⟨nofun, s, hs, hcall⟩

end Sys2Proof.Machine
end

section
/-! The statements about the step cycle (spec/40_step_cycle.md), settled. -/

namespace Sys2Proof.Machine

/-- Settles O24: the flush emits what was staged and leaves nothing, and only a `.` inside data memory stages again. -/
theorem outputAppearsOneStepLate : Obligations.OutputAppearsOneStepLate := by
  intro s t h
  obtain ⟨-, ⟨hend, rfl⟩ | ⟨hlt, heffect⟩⟩ := step_effect h
  · refine ⟨s.flush_out, ?_⟩
    rw [if_neg fun hout => absurd hout.1 (Nat.not_lt.mpr hend), State.flush_pout]
  · refine ⟨heffect.out_eq.trans s.flush_out, ?_⟩
    simp [heffect.pout_eq_ite, decodeByte_eq_out_iff, hlt]

/-- Settles O31: HALTED leaves a flushed machine at its end, which a further step does not change. -/
theorem stepAfterHaltHasNoEffect : Obligations.StepAfterHaltHasNoEffect := by
  intro s t n h
  cases stepCall_eq_some_iff.mp h with
  | halted hf hend =>
    have hf' : s.flush.fault = none := by rw [State.flush_fault, hf]
    have hend' : s.flush.imem.size ≤ s.flush.ip := by rwa [State.flush_imem, State.flush_ip]
    have hflush : s.flush.flush = s.flush := State.flush_of_pout_zero _ s.flush_pout
    have hstep := step_of_le hf' hend'
    have hcall := (CallEffect.halted hf' hend').stepCall_eq
    rw [hflush] at hstep hcall
    exact ⟨stepN_of_fixed hstep n, hcall⟩

/-- Settles O34: the clauses of a call exclude each other by the record before it, `ip` and the record after it. -/
theorem stepReturnsOneOfThreeResults : Obligations.StepReturnsOneOfThreeResults := by
  intro s
  obtain ⟨res, t, h⟩ := exists_callEffect s
  refine ⟨res, t, h.stepCall_eq, h.fault_iff, ?_⟩
  cases h with
  | absorbed hf => simp [hf]
  | halted hf hend => simp [hf, hend]
  | raised _ hlt _ ht => simp [hlt, ht]
  | cont hf hlt _ ht => simp [hf, hlt, ht]

/-- Settles O35: the last call of the run starts from a state that meets the invariant, and so does what it leaves. -/
theorem runEndsFlushedAndAtItsEnd : Obligations.RunEndsFlushedAndAtItsEnd := by
  intro fuel s t res hinv h
  obtain ⟨hres, u, hu, hcall⟩ := run_last_call (fun _ _ _ hs hc => hc.inv hs) hinv h
  cases res with
  | cont => exact absurd rfl hres
  | fault r =>
    have hfault := (hcall.fault_iff r).mp rfl
    obtain ⟨hfip, hlt, hpout⟩ := (hcall.inv hu).fault_at_ip r hfault
    refine ⟨hpout, hres, nofun, fun r' hr' => ?_⟩
    obtain rfl := StepResult.fault.inj hr'
    exact ⟨hfault, hfip, hlt⟩
  | halted =>
    cases hcall with
    | halted hf hend =>
      refine ⟨u.flush_pout, hres, fun _ => ⟨?_, by rw [State.flush_fault, hf]⟩, nofun⟩
      simpa using hu.ip_le.antisymm hend

/-- Settles O29: one byte decodes to one instruction, and the flush is one update of the state. -/
theorem stepRunsDecodedInstruction : Obligations.StepRunsDecodedInstruction := by
  intro s i hf hlt hi
  obtain rfl : decodeByte (s.imem.get s.ip) = i := congrArg Prod.fst (Except.ok.inj hi)
  exact (step_of_lt hf hlt).trans (congrArg (exec _) s.flush_eq)

/-- Settles O30: the termination check fires right after the flush. -/
theorem stepHaltsAtProgramEnd : Obligations.StepHaltsAtProgramEnd := by
  intro s hf hend
  have hcall := (CallEffect.halted hf hend).stepCall_eq
  have hstep := step_of_le hf hend
  rw [s.flush_eq] at hcall hstep
  exact ⟨hstep, hcall⟩

/-- Settles O32: phase 0 reports the record. -/
theorem faultedStepReturnsRecordedFault : Obligations.FaultedStepReturnsRecordedFault :=
  fun _ _ => stepCall_of_fault

/-- Settles O33: a recorded fault is answered as it stands, and every instruction has an effect. -/
theorem stepStopsExactlyOnFaultedMachine : Obligations.StepStopsExactlyOnFaultedMachine :=
  fun _ => ⟨fun _ => step_of_fault, fun _ => step_of_fault, exists_step⟩

end Sys2Proof.Machine
end

section
/-! The statements about the pointer instructions (spec/41_pointer.md), settled. -/

namespace Sys2Proof.Machine

/-- Settles O7: `>` has one clause, and below the bound adding 1 wraps at the top value only. -/
theorem rightMovesDataPointerUp : Obligations.RightMovesDataPointerUp := by
  refine ⟨rfl, fun s hdp => ?_⟩
  rw [Effect.right.exec_eq, addP_one s.ptrW hdp]
  rfl

/-- Settles O8: `<` has one clause, and below the bound taking 1 wraps at 0 only. -/
theorem leftMovesDataPointerDown : Obligations.LeftMovesDataPointerDown := by
  refine ⟨rfl, fun s hw hdp => ?_⟩
  rw [Effect.left.exec_eq, subP_one s.ptrW hw hdp]
  rfl

end Sys2Proof.Machine
end

section
/-! SUPPORT. The cell arithmetic on integers, once and repeated, and a run over equal bytes that each update the current
cell. -/

namespace Sys2Proof.Machine

/-! ### Arithmetic on one cell -/

theorem toNat_add8_one (v : Byte) : (add8 v 1#8).toNat = (v.toNat + 1) % 256 := BitVec.toNat_add v 1#8

theorem toNat_sub8_one (v : Byte) : ((sub8 v 1#8).toNat : Int) = ((v.toNat : Int) - 1) % 256 := by
  have hv : (sub8 v 1#8).toNat = (2 ^ 8 - 1 + v.toNat) % 2 ^ 8 := BitVec.toNat_sub v 1#8
  omega

/-- An update that adds the integer `d` modulo 256 adds `n * d` when it is repeated `n` times (spec/42_cell_arith.md R133). -/
theorem toNat_iterate {f : Byte → Byte} {d : Int} (hf : ∀ v, ((f v).toNat : Int) = (v.toNat + d) % 256) (n : Nat)
    (v : Byte) : ((f^[n] v).toNat : Int) = (v.toNat + n * d) % 256 := by
  induction n with
  | zero =>
    have hv : v.toNat < 256 := v.isLt
    simp only [Function.iterate_zero, id_eq, Nat.cast_zero, zero_mul]
    omega
  | succ n ih =>
    calc ((f^[n + 1] v).toNat : Int)
        = ((v.toNat + n * d) % 256 + d) % 256 := by rw [Function.iterate_succ_apply', hf, ih]
      _ = (v.toNat + n * d + d) % 256 := Int.emod_add_emod _ _ _
      _ = (v.toNat + (n + 1 : Nat) * d) % 256 := by push_cast; ring_nf

/-! ### Updates of the current cell -/

theorem Memory.get_put_self {m : Memory} (h : m.wf) (a : Nat) (v : Byte) : (m.put a v).get a = v := by
  rw [Memory.get_put h, if_pos rfl]

section Updates

variable {f : Byte → Byte} {op : Byte} (hop : ∀ s, exec (decodeByte op) s = updateCell f s)
include hop

/-- A step at a byte whose meaning is an update of the current cell. -/
theorem step_updateCell {s : State} (hf : s.fault = none) (hlt : s.ip < s.imem.size) (hbyte : s.imem.get s.ip = op)
    (hdp : s.dp < s.dmem.size) :
    ∃ u, step s = .next u ∧ u.imem = s.imem ∧ u.dmem = s.dmem.put s.dp (f (s.dmem.get s.dp)) ∧ u.ip = s.ip + 1 ∧
      u.dp = s.dp ∧ u.fault = none := by
  have hstep : step s = updateCell f s.flush := by rw [step_of_lt hf hlt, hbyte, hop]
  rw [updateCell_of_lt f (by simpa using hdp)] at hstep
  exact ⟨_, hstep, by simp [hf]⟩

/-- `n` steps over bytes that all update the current cell apply the update `n` times there and nowhere else
(spec/42_cell_arith.md R133, R134). -/
theorem stepN_updateCell {n : Nat} {s : State} (hwf : s.dmem.wf) (hf : s.fault = none) (hdp : s.dp < s.dmem.size)
    (hlen : s.ip + n ≤ s.imem.size) (hbytes : ∀ k, k < n → s.imem.get (s.ip + k) = op) :
    ∃ t, stepN n s = .next t ∧ t.ip = s.ip + n ∧ t.dp = s.dp ∧ t.fault = none ∧
      t.dmem.get s.dp = f^[n] (s.dmem.get s.dp) ∧ ∀ a, a ≠ s.dp → t.dmem.get a = s.dmem.get a := by
  induction n generalizing s with
  | zero => exact ⟨s, rfl, rfl, rfl, hf, rfl, fun _ _ => rfl⟩
  | succ n ih =>
    obtain ⟨u, hstep, huimem, hudmem, huip, hudp, huf⟩ :=
      step_updateCell hop hf (by omega) (hbytes 0 n.succ_pos) hdp
    have huwf : u.dmem.wf := hudmem ▸ Memory.put_wf hwf hdp _
    have hubytes (k : Nat) (hk : k < n) : u.imem.get (u.ip + k) = op := by
      rw [huimem, huip, Nat.add_right_comm]
      exact hbytes (k + 1) (Nat.succ_lt_succ hk)
    obtain ⟨t, hrun, hip, htdp, htf, hcell, hother⟩ :=
      ih huwf huf (by rwa [hudp, hudmem]) (by rw [huip, huimem]; omega) hubytes
    rw [hudp, hudmem] at hcell hother
    refine ⟨t, by rw [stepN, hstep]; exact hrun, by omega, htdp.trans hudp, htf, ?_, fun a ha => ?_⟩
    · rw [hcell, Memory.get_put_self hwf, Function.iterate_succ_apply]
    · rw [hother a ha, Memory.get_put hwf, if_neg ha]

end Updates

end Sys2Proof.Machine
end

section
/-! The statements about the cell arithmetic (spec/42_cell_arith.md), settled. -/

namespace Sys2Proof.Machine

/-- Settles O10: `+` has two clauses, one on each side of the bounds check. -/
theorem incrementAddsOneToCell : Obligations.IncrementAddsOneToCell := by
  refine ⟨rfl, fun s hwf => ⟨fun hdp => ?_, exec_cellOutOfBounds (by decide)⟩⟩
  have heffect := Effect.inc hdp
  refine ⟨_, heffect.exec_eq, heffect.dmem_size_eq, ?_, fun a ha => heffect.dmem_get_of_ne hwf ha⟩
  exact (congrArg BitVec.toNat (Memory.get_put_self hwf ..)).trans (toNat_add8_one _)

/-- Settles O11: the clauses of `-` are those of `+`, with the difference. -/
theorem decrementTakesOneFromCell : Obligations.DecrementTakesOneFromCell := by
  refine ⟨rfl, fun s hwf => ⟨fun hdp => ?_, exec_cellOutOfBounds (by decide)⟩⟩
  have heffect := Effect.dec hdp
  refine ⟨_, heffect.exec_eq, heffect.dmem_size_eq, ?_, fun a ha => heffect.dmem_get_of_ne hwf ha⟩
  exact (congrArg (fun v : Byte => (v.toNat : Int)) (Memory.get_put_self hwf ..)).trans (toNat_sub8_one _)

/-- Settles O12: the run iterates the update of one step, and iterating `+ 1` or `- 1` adds or takes `n`. -/
theorem repeatedArithmeticIsModulo256 : Obligations.RepeatedArithmeticIsModulo256 := by
  intro n s hinv hf hdp hlen
  constructor
  · intro hbytes
    obtain ⟨t, hrun, hip, htdp, htf, hcell, hother⟩ :=
      stepN_updateCell (f := (add8 · 1#8)) (fun _ => rfl) hinv.dmem_wf hf hdp hlen hbytes
    have hsum := toNat_iterate (f := (add8 · 1#8)) (d := 1) (fun v => mod_cast toNat_add8_one v) n (s.dmem.get s.dp)
    exact ⟨t, hrun, hip, htdp, htf, by rw [hcell]; omega, hother⟩
  · intro hbytes
    obtain ⟨t, hrun, hip, htdp, htf, hcell, hother⟩ :=
      stepN_updateCell (f := (sub8 · 1#8)) (fun _ => rfl) hinv.dmem_wf hf hdp hlen hbytes
    have hdiff := toNat_iterate (f := (sub8 · 1#8)) (d := -1) (fun v => by rw [toNat_sub8_one, sub_eq_add_neg]) n
      (s.dmem.get s.dp)
    exact ⟨t, hrun, hip, htdp, htf, by rw [hcell]; omega, hother⟩

end Sys2Proof.Machine
end

section
/-! SUPPORT. The bracket scans, said once by heights: the height of a position is how many more `[` than `]` stand before it, and
a scan's nesting counter is how far it stands above the level it started at. The forward scan ends at the first later position
below that level, the backward scan at the last earlier one. -/

namespace Sys2Proof.Machine

/-! ### The height of a position -/

/-- How many more `[` than `]` stand below address `a`. -/
def Memory.height (m : Memory) (a : Nat) : Int := m.countFrom opLoopBegin 0 a - m.countFrom opLoopEnd 0 a

section Height

variable {m : Memory} {a : Nat}

theorem Memory.height_succ_of_open (h : m.get a = opLoopBegin) : m.height (a + 1) = m.height a + 1 := by
  have hne : opLoopBegin ≠ opLoopEnd := by decide
  simp only [Memory.height, Memory.countFrom_succ, Nat.zero_add, h, if_true, if_neg hne]
  omega

theorem Memory.height_succ_of_close (h : m.get a = opLoopEnd) : m.height (a + 1) = m.height a - 1 := by
  have hne : opLoopEnd ≠ opLoopBegin := by decide
  simp only [Memory.height, Memory.countFrom_succ, Nat.zero_add, h, if_true, if_neg hne]
  omega

theorem Memory.height_succ_of_other (hopen : m.get a ≠ opLoopBegin) (hclose : m.get a ≠ opLoopEnd) :
    m.height (a + 1) = m.height a := by
  simp only [Memory.height, Memory.countFrom_succ, Nat.zero_add, if_neg hopen, if_neg hclose, Nat.add_zero]

/-- Only a `]` lowers the height. -/
theorem Memory.get_eq_close_of_height_lt (h : m.height (a + 1) < m.height a) : m.get a = opLoopEnd := by
  by_contra hclose
  by_cases hopen : m.get a = opLoopBegin
  · have := height_succ_of_open hopen; omega
  · have := height_succ_of_other hopen hclose; omega

/-- Only a `[` raises the height. -/
theorem Memory.get_eq_open_of_lt_height (h : m.height a < m.height (a + 1)) : m.get a = opLoopBegin := by
  by_contra hopen
  by_cases hclose : m.get a = opLoopEnd
  · have := height_succ_of_close hclose; omega
  · have := height_succ_of_other hopen hclose; omega

end Height

/-- A count over adjacent ranges is the sum of the counts. -/
theorem Memory.countFrom_add (m : Memory) (c : Byte) (lo n k : Nat) :
    m.countFrom c lo (n + k) = m.countFrom c lo n + m.countFrom c (lo + n) k := by
  simp only [Memory.countFrom, ← List.range'_append_1, List.countP_append]

/-- The rise over a range of addresses is the difference of the two counts in it. -/
theorem Memory.height_add (m : Memory) (a n : Nat) :
    m.height (a + n) = m.height a + (m.countFrom opLoopBegin a n - m.countFrom opLoopEnd a n) := by
  simp only [Memory.height, Memory.countFrom_add, Nat.zero_add]
  omega

theorem Memory.closesAfter_iff {m : Memory} {p q : Nat} (h : p ≤ q) :
    m.closesAfter p q ↔ m.height (q + 1) < m.height (p + 1) := by
  have hrise := m.height_add (p + 1) (q - p)
  rw [show p + 1 + (q - p) = q + 1 by omega] at hrise
  rw [Memory.closesAfter]
  omega

/-- More have closed than opened at no position below `n` when no address up to `n` is lower than the one just behind `p`. -/
theorem Memory.forall_not_closesAfter_iff {m : Memory} {p n : Nat} :
    (∀ q, p < q → q < n → ¬m.closesAfter p q) ↔ ∀ r, p < r → r ≤ n → m.height (p + 1) ≤ m.height r := by
  constructor
  · intro hnone r hpr hrn
    obtain ⟨q, rfl⟩ : ∃ q, r = q + 1 := Nat.exists_eq_add_one_of_ne_zero (by omega)
    rcases (Nat.le_of_lt_succ hpr).eq_or_lt with rfl | hpq
    · exact le_rfl
    · exact not_lt.mp (mt (closesAfter_iff hpq.le).mpr (hnone q hpq hrn))
  · intro hhigh q hpq hqn
    rw [closesAfter_iff hpq.le]
    exact (hhigh (q + 1) (by omega) hqn).not_gt

theorem Memory.opensBefore_iff {m : Memory} {q p : Nat} (h : q ≤ p) : m.opensBefore q p ↔ m.height q < m.height p := by
  have hrise := m.height_add q (p - q)
  rw [Nat.add_sub_cancel' h] at hrise
  rw [Memory.opensBefore]
  omega

/-! ### The forward scan -/

section Forward

variable {m : Memory} {level : Int}

/-- One position of the forward scan: the scan ends behind it when the height falls below the level, and otherwise goes on with
the height above the level as its counter. -/
theorem scanForwardFrom_succ {pos depth : Nat} (h : m.height pos = level + depth) (left : Nat) :
    (m.height (pos + 1) < level ∧ scanForwardFrom m (left + 1) pos depth = .ok (pos + 1)) ∨
    ∃ depth' : Nat, m.height (pos + 1) = level + depth' ∧
      scanForwardFrom m (left + 1) pos depth = scanForwardFrom m left (pos + 1) depth' := by
  rw [scanForwardFrom]
  split_ifs with hopen hclose hzero
  · exact .inr ⟨depth + 1, by rw [Memory.height_succ_of_open hopen]; omega, rfl⟩
  · exact .inl ⟨by rw [Memory.height_succ_of_close hclose]; omega, rfl⟩
  · exact .inr ⟨depth - 1, by rw [Memory.height_succ_of_close hclose]; omega, rfl⟩
  · exact .inr ⟨depth, (Memory.height_succ_of_other hopen hclose).trans h, rfl⟩

/-- The forward scan ends at the first position below the level, and fails when there is none. -/
theorem scanForwardFrom_cases {left pos depth : Nat} (h : m.height pos = level + depth) :
    (∃ t, scanForwardFrom m left pos depth = .ok t ∧ pos < t ∧ t ≤ pos + left ∧ m.height t < level ∧
      ∀ r, pos ≤ r → r < t → level ≤ m.height r) ∨
    (scanForwardFrom m left pos depth = .error .unmatchedBracket ∧
      ∀ r, pos ≤ r → r ≤ pos + left → level ≤ m.height r) := by
  have hpos : level ≤ m.height pos := by omega
  induction left generalizing pos depth with
  | zero =>
    refine .inr ⟨rfl, fun r hle hge => ?_⟩
    rwa [Nat.le_antisymm hge hle]
  | succ left ih =>
    rcases scanForwardFrom_succ h left with ⟨hlow, hscan⟩ | ⟨depth', h', hscan⟩
    · refine .inl ⟨pos + 1, hscan, by omega, by omega, hlow, fun r hle hlt => ?_⟩
      rwa [Nat.le_antisymm (Nat.le_of_lt_succ hlt) hle]
    · rw [hscan]
      rcases ih h' (by omega) with ⟨t, ht, hlt, hle, hlow, hfirst⟩ | ⟨herr, hnone⟩
      · refine .inl ⟨t, ht, by omega, by omega, hlow, fun r hr hrt => ?_⟩
        exact hr.eq_or_lt.elim (fun heq => heq ▸ hpos) fun hr => hfirst r hr hrt
      · refine .inr ⟨herr, fun r hr hrle => ?_⟩
        exact hr.eq_or_lt.elim (fun heq => heq ▸ hpos) fun hr => hnone r hr (by omega)

end Forward

theorem scanForward_cases (m : Memory) (p : Nat) :
    (∃ t, scanForward m p = .ok t ∧ p < t ∧ t ≤ m.size ∧ m.height t < m.height (p + 1) ∧
      ∀ r, p < r → r < t → m.height (p + 1) ≤ m.height r) ∨
    (scanForward m p = .error .unmatchedBracket ∧ ∀ r, p < r → r ≤ m.size → m.height (p + 1) ≤ m.height r) := by
  rcases scanForwardFrom_cases (m := m) (left := m.size - (p + 1)) (depth := 0) (Int.add_zero (m.height (p + 1))).symm
    with ⟨t, ht, hlt, hle, hlow, hfirst⟩ | ⟨herr, hnone⟩
  · exact .inl ⟨t, ht, by omega, by omega, hlow, hfirst⟩
  · exact .inr ⟨herr, fun r hr hle => hnone r hr (by omega)⟩

/-- The forward scan goes to the first position behind the bracket that is lower than the one just behind it. -/
theorem scanForward_eq_ok_iff {m : Memory} {p t : Nat} :
    scanForward m p = .ok t ↔ p < t ∧ t ≤ m.size ∧ m.height t < m.height (p + 1) ∧
      ∀ r, p < r → r < t → m.height (p + 1) ≤ m.height r := by
  rcases scanForward_cases m p with ⟨u, hu, hpu, husize, hulow, hufirst⟩ | ⟨herr, hnone⟩
  · rw [hu, Except.ok.injEq]
    refine ⟨fun h => h ▸ ⟨hpu, husize, hulow, hufirst⟩, fun ⟨hpt, htsize, htlow, htfirst⟩ => ?_⟩
    rcases Nat.lt_trichotomy u t with hlt | heq | hgt
    · exact absurd hulow (htfirst u hpu hlt).not_gt
    · exact heq
    · exact absurd htlow (hufirst t hpt hgt).not_gt
  · rw [herr]
    exact ⟨nofun, fun ⟨hpt, htsize, htlow, _⟩ => absurd htlow (hnone t hpt htsize).not_gt⟩

theorem scanForward_eq_error_iff {m : Memory} {p : Nat} :
    scanForward m p = .error .unmatchedBracket ↔ ∀ r, p < r → r ≤ m.size → m.height (p + 1) ≤ m.height r := by
  rcases scanForward_cases m p with ⟨t, ht, hpt, hsize, hlow, _⟩ | ⟨herr, hnone⟩
  · rw [ht]
    exact ⟨nofun, fun h => absurd hlow (h t hpt hsize).not_gt⟩
  · exact ⟨fun _ => hnone, fun _ => herr⟩

/-! ### The backward scan -/

section Backward

variable {m : Memory} {level : Int}

/-- One position of the backward scan: the scan ends at it when its height is below the level, and otherwise goes on with the
height above the level as its counter. -/
theorem scanBackwardFrom_succ {pos depth : Nat} (h : m.height (pos + 1) = level + depth) :
    (m.height pos < level ∧ scanBackwardFrom m (pos + 1) depth = .ok pos) ∨
    ∃ depth' : Nat, m.height pos = level + depth' ∧
      scanBackwardFrom m (pos + 1) depth = scanBackwardFrom m pos depth' := by
  rw [scanBackwardFrom]
  split_ifs with hclose hopen hzero
  · exact .inr ⟨depth + 1, by rw [Memory.height_succ_of_close hclose] at h; omega, rfl⟩
  · exact .inl ⟨by rw [Memory.height_succ_of_open hopen] at h; omega, rfl⟩
  · exact .inr ⟨depth - 1, by rw [Memory.height_succ_of_open hopen] at h; omega, rfl⟩
  · exact .inr ⟨depth, (Memory.height_succ_of_other hopen hclose).symm.trans h, rfl⟩

/-- The backward scan ends at the last position below the level, and fails when there is none. -/
theorem scanBackwardFrom_cases {bound depth : Nat} (h : m.height bound = level + depth) :
    (∃ q, scanBackwardFrom m bound depth = .ok q ∧ q < bound ∧ m.height q < level ∧
      ∀ r, q < r → r ≤ bound → level ≤ m.height r) ∨
    (scanBackwardFrom m bound depth = .error .unmatchedBracket ∧ ∀ r, r ≤ bound → level ≤ m.height r) := by
  have hbound : level ≤ m.height bound := by omega
  induction bound generalizing depth with
  | zero =>
    refine .inr ⟨rfl, fun r hle => ?_⟩
    rwa [Nat.le_zero.mp hle]
  | succ pos ih =>
    rcases scanBackwardFrom_succ h with ⟨hlow, hscan⟩ | ⟨depth', h', hscan⟩
    · refine .inl ⟨pos, hscan, pos.lt_succ_self, hlow, fun r hlt hle => ?_⟩
      rwa [Nat.le_antisymm hle hlt]
    · rw [hscan]
      rcases ih h' (by omega) with ⟨q, hq, hlt, hlow, hlast⟩ | ⟨herr, hnone⟩
      · refine .inl ⟨q, hq, by omega, hlow, fun r hqr hr => ?_⟩
        exact hr.eq_or_lt.elim (fun heq => heq ▸ hbound) fun hr => hlast r hqr (Nat.le_of_lt_succ hr)
      · refine .inr ⟨herr, fun r hr => ?_⟩
        exact hr.eq_or_lt.elim (fun heq => heq ▸ hbound) fun hr => hnone r (Nat.le_of_lt_succ hr)

end Backward

theorem scanBackward_cases (m : Memory) (p : Nat) :
    (∃ q, scanBackward m p = .ok q ∧ q < p ∧ m.height q < m.height p ∧
      ∀ r, q < r → r ≤ p → m.height p ≤ m.height r) ∨
    (scanBackward m p = .error .unmatchedBracket ∧ ∀ r, r ≤ p → m.height p ≤ m.height r) :=
  scanBackwardFrom_cases (Int.add_zero (m.height p)).symm

/-- The backward scan goes to the last position before the bracket that is lower than the bracket's own. -/
theorem scanBackward_eq_ok_iff {m : Memory} {p q : Nat} :
    scanBackward m p = .ok q ↔ q < p ∧ m.height q < m.height p ∧ ∀ r, q < r → r < p → m.height p ≤ m.height r := by
  rcases scanBackward_cases m p with ⟨u, hu, hup, hulow, hulast⟩ | ⟨herr, hnone⟩
  · rw [hu, Except.ok.injEq]
    refine ⟨fun h => h ▸ ⟨hup, hulow, fun r hur hrp => hulast r hur hrp.le⟩, fun ⟨hqp, hqlow, hqlast⟩ => ?_⟩
    rcases Nat.lt_trichotomy u q with hlt | heq | hgt
    · exact absurd hqlow (hulast q hlt hqp.le).not_gt
    · exact heq
    · exact absurd hulow (hqlast u hgt hup).not_gt
  · rw [herr]
    exact ⟨nofun, fun ⟨hqp, hqlow, _⟩ => absurd hqlow (hnone q hqp.le).not_gt⟩

theorem scanBackward_eq_error_iff {m : Memory} {p : Nat} :
    scanBackward m p = .error .unmatchedBracket ↔ ∀ r, r < p → m.height p ≤ m.height r := by
  rcases scanBackward_cases m p with ⟨q, hq, hqp, hlow, _⟩ | ⟨herr, hnone⟩
  · rw [hq]
    exact ⟨nofun, fun h => absurd hlow (h q hqp).not_gt⟩
  · exact ⟨fun _ r hr => hnone r hr.le, fun _ => herr⟩

/-! ### What a scan looks at -/

section Congruence

variable {m m' : Memory} (hopen : ∀ a, m.get a = opLoopBegin ↔ m'.get a = opLoopBegin)
  (hclose : ∀ a, m.get a = opLoopEnd ↔ m'.get a = opLoopEnd)
include hopen hclose

theorem scanForwardFrom_congr (left pos depth : Nat) :
    scanForwardFrom m left pos depth = scanForwardFrom m' left pos depth := by
  induction left generalizing pos depth with
  | zero => rfl
  | succ left ih => simp only [scanForwardFrom, hopen, hclose, ih]

theorem scanBackwardFrom_congr (bound depth : Nat) :
    scanBackwardFrom m bound depth = scanBackwardFrom m' bound depth := by
  induction bound generalizing depth with
  | zero => rfl
  | succ pos ih => simp only [scanBackwardFrom, hopen, hclose, ih]

end Congruence

end Sys2Proof.Machine
end

section
/-! The statements about the loop instructions and the bracket matcher (spec/43_loop.md), settled. -/

namespace Sys2Proof.Machine

/-- Settles O13: more brackets have closed than opened at `q` exactly when the position behind `q` is lower than the one behind
`p`, and the scan finds the first such position. -/
theorem forwardScanFindsLeastClosing : Obligations.ForwardScanFindsLeastClosing := by
  refine fun m p => ⟨fun t => ?_, ?_⟩
  · rw [scanForward_eq_ok_iff]
    constructor
    · rintro ⟨hpt, hsize, hlow, hfirst⟩
      obtain ⟨q, rfl⟩ : ∃ q, t = q + 1 := Nat.exists_eq_add_one_of_ne_zero (by omega)
      have hpq : p < q := (Nat.le_of_lt_succ hpt).lt_of_ne (by rintro rfl; exact lt_irrefl _ hlow)
      refine ⟨q, rfl, hpq, hsize, (Memory.closesAfter_iff hpq.le).mpr hlow, ?_⟩
      exact Memory.forall_not_closesAfter_iff.mpr fun r hpr hrq => hfirst r hpr (Nat.lt_succ_of_le hrq)
    · rintro ⟨q, rfl, hpq, hsize, hcloses, hfirst⟩
      refine ⟨by omega, hsize, (Memory.closesAfter_iff hpq.le).mp hcloses, fun r hpr hrq => ?_⟩
      exact Memory.forall_not_closesAfter_iff.mp hfirst r hpr (Nat.le_of_lt_succ hrq)
  · rw [scanForward_eq_error_iff, Memory.forall_not_closesAfter_iff]

/-- Settles O14: more brackets open than close from `q` to `p` exactly when `q` is lower than `p`, and the scan finds the last
such position. -/
theorem backwardScanFindsGreatestOpening : Obligations.BackwardScanFindsGreatestOpening := by
  have hiff {m : Memory} {q p : Nat} (h : q < p) := Memory.opensBefore_iff (m := m) h.le
  refine fun m p => ⟨fun q => ?_, ?_⟩
  · rw [scanBackward_eq_ok_iff]
    refine and_congr_right fun hqp => and_congr (hiff hqp).symm ?_
    exact forall₃_congr fun r _ hrp => by rw [hiff hrp, not_lt]
  · rw [scanBackward_eq_error_iff]
    exact forall₂_congr fun q hqp => by rw [hiff hqp, not_lt]

/-- Settles O15: in both directions the scan's target makes `p + 1` and `q` equally high, with nothing between them lower, and
that is what the other scan looks for. -/
theorem bracketScansAreInverse : Obligations.BracketScansAreInverse := by
  refine ⟨fun m p q hp hscan => ?_, fun m p q hq hsize hscan => ?_⟩
  · obtain ⟨hpq, -, hlow, hfirst⟩ := scanForward_eq_ok_iff.mp hscan
    have hlt : p < q := (Nat.le_of_lt_succ hpq).lt_of_ne (by rintro rfl; exact lt_irrefl _ hlow)
    have hqhigh : m.height (p + 1) ≤ m.height q := hfirst q hlt q.lt_succ_self
    have hq : m.get q = opLoopEnd := Memory.get_eq_close_of_height_lt (hlow.trans_le hqhigh)
    have hup := Memory.height_succ_of_open hp
    have hdown := Memory.height_succ_of_close hq
    refine ⟨hq, scanBackward_eq_ok_iff.mpr ⟨hlt, by omega, fun r hpr hrq => ?_⟩⟩
    have hr := hfirst r hpr (hrq.trans q.lt_succ_self)
    omega
  · obtain ⟨hlt, hlow, hlast⟩ := scanBackward_eq_ok_iff.mp hscan
    have hphigh : m.height q ≤ m.height (p + 1) := by
      rcases (Nat.succ_le_of_lt hlt).eq_or_lt with heq | hpq
      · exact (congrArg m.height heq).ge
      · exact hlast (p + 1) p.lt_succ_self hpq
    have hp : m.get p = opLoopBegin := Memory.get_eq_open_of_lt_height (hlow.trans_le hphigh)
    have hup := Memory.height_succ_of_open hp
    have hdown := Memory.height_succ_of_close hq
    refine ⟨hp, scanForward_eq_ok_iff.mpr ⟨by omega, hsize, by omega, fun r hpr hrq => ?_⟩⟩
    rcases (Nat.le_of_lt_succ hrq).eq_or_lt with rfl | hrq
    · omega
    · have hr := hlast r hpr hrq
      omega

/-- Settles O16: the loops compare each byte with the two bracket bytes and do nothing else with it. -/
theorem scansSeeOnlyBrackets : Obligations.ScansSeeOnlyBrackets := by
  intro m m' p hsize h
  have hopen (a : Nat) : m.get a = opLoopBegin ↔ m'.get a = opLoopBegin := (h a).1
  have hclose (a : Nat) : m.get a = opLoopEnd ↔ m'.get a = opLoopEnd := (h a).2
  constructor
  · rw [scanForward, scanForward, hsize, scanForwardFrom_congr hopen hclose]
  · exact scanBackwardFrom_congr hopen hclose p 0

/-- Settles O19: a target is bounded by the scan, and a failure is never another fault. -/
theorem scansEndInTargetOrUnmatched : Obligations.ScansEndInTargetOrUnmatched := by
  intro m p
  constructor
  · cases hscan : scanForward m p with
    | ok t => exact .inl ⟨t, rfl, scanForward_bounds hscan⟩
    | error k => exact .inr (congrArg Except.error (scanForward_error hscan))
  · cases hscan : scanBackward m p with
    | ok t => exact .inl ⟨t, rfl, scanBackward_bounds hscan⟩
    | error k => exact .inr (congrArg Except.error (scanBackward_error hscan))

/-- Settles O17: `[` has one clause for each case. -/
theorem loopBeginJumpsWhenCellIsZero : Obligations.LoopBeginJumpsWhenCellIsZero :=
  ⟨rfl, fun _ => ⟨exec_cellOutOfBounds (by decide), fun hdp hv => (Effect.enterLoop hdp hv).exec_eq,
    fun hdp hv _ hscan => (Effect.skipLoop hdp hv hscan).exec_eq,
    fun hdp hv hscan => (Effect.noClosing hdp hv hscan).exec_eq⟩⟩

/-- Settles O18: `]` has one clause for each case. -/
theorem loopEndJumpsWhenCellIsNonzero : Obligations.LoopEndJumpsWhenCellIsNonzero :=
  ⟨rfl, fun _ => ⟨exec_cellOutOfBounds (by decide), fun hdp hv => (Effect.leaveLoop hdp hv).exec_eq,
    fun hdp hv _ hscan => (Effect.repeatLoop hdp hv hscan).exec_eq,
    fun hdp hv hscan => (Effect.noOpening hdp hv hscan).exec_eq⟩⟩

end Sys2Proof.Machine
end

section
/-! The statements about the input and output instructions (spec/44_io.md), settled. -/

namespace Sys2Proof.Machine

/-! ### Output -/

/-- Settles O20: `.` has two clauses, one on each side of the bounds check. -/
theorem outStagesCurrentCell : Obligations.OutStagesCurrentCell :=
  ⟨rfl, fun _ => ⟨fun hdp => (Effect.out hdp).exec_eq, exec_cellOutOfBounds (by decide)⟩⟩

/-- Settles O25: each step appends what was pending before it, which is no zero byte. -/
theorem zeroByteIsNeverEmitted : Obligations.ZeroByteIsNeverEmitted := by
  intro n s t h
  refine stepN_keeps (P := fun u => ∃ emitted, u.out = s.out ++ emitted ∧ 0#8 ∉ emitted) ?_
    ⟨[], (List.append_nil _).symm, List.not_mem_nil⟩ h
  rintro u v ⟨emitted, hout, hzero⟩ hstep
  have hv : v.out = u.out ++ u.pending := (outputAppearsOneStepLate u v hstep).1
  refine ⟨emitted ++ u.pending, by rw [hv, hout, List.append_assoc], fun hmem => ?_⟩
  rcases List.mem_append.mp hmem with hold | hnew
  · exact hzero hold
  · exact u.pending_ne_zero hnew rfl

/-! ### Input -/

/-- Settles O21: `,` has one clause at EOF, and for a byte one on each side of the bounds check. -/
theorem inpStoresByteOrAdvancesAtEof : Obligations.InpStoresByteOrAdvancesAtEof := by
  refine ⟨rfl, fun s t r hwf hread => ?_⟩
  rw [s.inputRead_eq] at hread
  obtain ⟨hr, rfl⟩ := Prod.mk.inj hread
  refine ⟨rfl, fun heof => (Effect.inpEof (hr.trans heof)).exec_eq, fun b hb hdp => ?_,
    fun b hb hdp => (Effect.inpOutOfBounds (hr.trans hb) hdp).exec_eq⟩
  have heffect := Effect.inpByte (hr.trans hb) hdp
  exact ⟨_, heffect.exec_eq, heffect.dmem_size_eq, Memory.get_put_self hwf .., fun a ha => heffect.dmem_get_of_ne hwf ha⟩

section Steps

variable {s : State} (hf : s.fault = none) (hlt : s.ip < s.imem.size) (hbyte : s.imem.get s.ip = 0x2C#8)
include hf hlt hbyte

/-- A step at a `,` with EOF ahead flushes and advances (spec/44_io.md R166). -/
theorem step_inp_of_eof (hr : s.input.head?.getD .eof = .eof) : step s = .next s.flush.takeInput.advance := by
  rw [step_of_lt hf hlt, hbyte]
  exact (Effect.inpEof (by rwa [State.flush_input])).exec_eq

/-- A step at a `,` with a byte ahead flushes and stores the byte, and stays at the `,` (spec/44_io.md R165). -/
theorem step_inp_of_byte {b : Byte} (hr : s.input.head?.getD .eof = .byte b) (hdp : s.dp < s.dmem.size) :
    step s = .next (s.flush.takeInput.storeCell b) := by
  rw [step_of_lt hf hlt, hbyte]
  exact (Effect.inpByte (by rwa [State.flush_input]) (by simpa using hdp)).exec_eq

end Steps

/-- A stream that does not begin with a byte answers EOF. -/
theorem firstAnswer_eq_eof {answers : List InputAnswer} (h : ∀ b, answers.head? ≠ some (.byte b)) :
    answers.head?.getD .eof = .eof := by
  cases hhead : answers.head? with
  | none => rfl
  | some r =>
    cases r with
    | eof => rfl
    | byte b => exact absurd hhead (h b)

/-- Settles O23, by induction on the bytes ahead: each byte is one step that overwrites the cell and comes back to the same
`,`, and the EOF after them is the last step. -/
theorem inpSwallowsAllAvailableInput : Obligations.InpSwallowsAllAvailableInput := by
  intro bs tail s hinv hf hlt hbyte hdp hinput htail
  induction bs generalizing s with
  | nil =>
    have hstep := step_inp_of_eof hf hlt hbyte (firstAnswer_eq_eof (hinput ▸ htail))
    refine ⟨_, by rw [List.length_nil, stepN, hstep]; rfl, ?_⟩
    simp [hf, hinput]
  | cons b bs ih =>
    have hstep := step_inp_of_byte hf hlt hbyte (b := b) (by simp [hinput]) hdp
    obtain ⟨t, hrun, hip, htdp, htin, htf, hcell, hother⟩ :=
      ih _ (hinv.step hstep) (by simpa using hf) (by simpa using hlt) (by simpa using hbyte) (by simpa using hdp)
        (by simp [hinput])
    refine ⟨t, by rw [List.length_cons, stepN, hstep]; exact hrun, by simpa using hip, by simpa using htdp, htin, htf, ?_,
      fun a ha => ?_⟩
    · simpa [Memory.get_put_self hinv.dmem_wf, List.getLast?_cons] using hcell
    · simpa [Memory.get_put hinv.dmem_wf, ha] using hother a (by simpa using ha)

end Sys2Proof.Machine
end

section
/-! The statement about the other bytes (spec/45_nop.md), settled. -/

namespace Sys2Proof.Machine

/-- Settles O28: NOP has one clause, with no bounds check in it, and a byte outside the opcode map decodes to its own NOP. -/
theorem otherBytesOnlyAdvance : Obligations.OtherBytesOnlyAdvance :=
  ⟨fun _ _ => Effect.nop.exec_eq, fun op hop => ⟨op, decodeByte_of_notMem hop⟩⟩

end Sys2Proof.Machine
end

section
/-! SUPPORT. The raise, said once (spec/60_exceptions.md R191, R192, R195 to R197): which clauses of an instruction's effect
record a fault, and what such a clause leaves. -/

namespace Sys2Proof.Machine

/-! ### Opcodes and answers, read backwards -/

/-- A byte decodes to an instruction exactly when it is the instruction's byte. -/
theorem decodeByte_eq_iff {op : Byte} {i : Instr} (hi : i.wellFormed = true) : decodeByte op = i ↔ op = encodeByte i :=
  ⟨fun h => h ▸ (encodeByte_decodeByte op).symm, fun h => h ▸ decodeByte_encodeByte hi⟩

/-- A byte decodes into a list of instructions exactly when it is the byte of one of them. -/
theorem decodeByte_mem_iff {op : Byte} {is : List Instr} (his : ∀ i ∈ is, i.wellFormed = true) :
    decodeByte op ∈ is ↔ op ∈ is.map encodeByte := by
  rw [List.mem_map]
  constructor
  · intro h
    exact ⟨_, h, encodeByte_decodeByte op⟩
  · rintro ⟨i, hi, rfl⟩
    rwa [decodeByte_encodeByte (his i hi)]

/-- The bytes of the instructions that read the current cell first. -/
theorem decodeByte_mem_cellReaders_iff {op : Byte} :
    decodeByte op ∈ cellReaders ↔ op ∈ [0x2B#8, 0x2D#8, 0x5B#8, 0x5D#8, 0x2E#8] :=
  decodeByte_mem_iff (by decide)

/-- Only a listed byte is answered with a byte (log entry 3). -/
theorem firstAnswer_eq_byte_iff {answers : List InputAnswer} {b : Byte} :
    answers.head?.getD .eof = .byte b ↔ answers.head? = some (.byte b) := by
  cases answers.head? <;> simp

/-! ### Which instruction raises what -/

/-- An instruction has one effect. -/
theorem Effect.unique {s t u : State} {i : Instr} (h : Effect s i t) (h' : Effect s i u) : t = u :=
  Host.Outcome.next.inj (h.exec_eq.symm.trans h'.exec_eq)

section Raise

variable {s t : State} {i : Instr} (h : Effect s i t) (hf : s.fault = none)
include h hf

/-- The OutOfBounds column of R200's table. -/
theorem Effect.raises_outOfBounds_iff :
    (∃ fip, t.fault = some { kind := .outOfBounds, fip := fip }) ↔
      s.dmem.size ≤ s.dp ∧ (i ∈ cellReaders ∨ (i = .inp ∧ ∃ b, s.input.head? = some (.byte b))) := by
  constructor
  · rintro ⟨fip, ht⟩
    cases h with
    | inpOutOfBounds hr hdp => exact ⟨hdp, .inr ⟨rfl, _, firstAnswer_eq_byte_iff.mp hr⟩⟩
    | cellOutOfBounds hi hdp => exact ⟨hdp, .inl hi⟩
    | noClosing => cases ht
    | noOpening => cases ht
    | _ => cases hf.symm.trans ht
  · rintro ⟨hdp, hi | ⟨rfl, b, hb⟩⟩
    · rw [h.unique (.cellOutOfBounds hi hdp)]; exact ⟨_, rfl⟩
    · rw [h.unique (.inpOutOfBounds (firstAnswer_eq_byte_iff.mpr hb) hdp)]; exact ⟨_, rfl⟩

/-- The UnmatchedBracket column of R200's table; that `dp` is in range is R204's order of the two checks. -/
theorem Effect.raises_unmatchedBracket_iff :
    (∃ fip, t.fault = some { kind := .unmatchedBracket, fip := fip }) ↔
      s.dp < s.dmem.size ∧
      ((i = .loopBegin ∧ s.dmem.get s.dp = 0#8 ∧ scanForward s.imem s.ip = .error .unmatchedBracket) ∨
       (i = .loopEnd ∧ s.dmem.get s.dp ≠ 0#8 ∧ scanBackward s.imem s.ip = .error .unmatchedBracket)) := by
  constructor
  · rintro ⟨fip, ht⟩
    cases h with
    | noClosing hdp hv hscan => exact ⟨hdp, .inl ⟨rfl, hv, hscan⟩⟩
    | noOpening hdp hv hscan => exact ⟨hdp, .inr ⟨rfl, hv, hscan⟩⟩
    | inpOutOfBounds => cases ht
    | cellOutOfBounds => cases ht
    | _ => cases hf.symm.trans ht
  · rintro ⟨hdp, ⟨rfl, hv, hscan⟩ | ⟨rfl, hv, hscan⟩⟩
    · rw [h.unique (.noClosing hdp hv hscan)]; exact ⟨_, rfl⟩
    · rw [h.unique (.noOpening hdp hv hscan)]; exact ⟨_, rfl⟩

/-- What a raise leaves: the record at `ip`, and for a `,` the byte taken from the stream (spec/60_exceptions.md R196, R197). -/
theorem Effect.raise_cases {r : FaultRecord} (ht : t.fault = some r) :
    r.fip = s.ip ∧
    (t = { s with fault := some r } ∨
     (i = .inp ∧ (∃ b, s.input = .byte b :: t.input) ∧ t = { s with fault := some r, input := t.input })) := by
  cases h with
  | noClosing => cases ht; exact ⟨rfl, .inl rfl⟩
  | noOpening => cases ht; exact ⟨rfl, .inl rfl⟩
  | cellOutOfBounds => cases ht; exact ⟨rfl, .inl rfl⟩
  | inpOutOfBounds hr =>
    cases ht
    exact ⟨rfl, .inr ⟨rfl, ⟨_, List.eq_cons_of_mem_head? (firstAnswer_eq_byte_iff.mp hr)⟩, rfl⟩⟩
  | _ => cases hf.symm.trans ht

end Raise

/-! ### The machine that has faulted -/

/-- A faulted machine takes no program (spec/70_reset_and_hazards.md R235). -/
theorem loadProgram_of_fault {s : State} {r : FaultRecord} (hf : s.fault = some r) (p : List Byte) :
    loadProgram p s = (.refused, s) :=
  loadProgram_refused fun ⟨hnone, _⟩ => by cases hf.symm.trans hnone

theorem HostOp.apply_of_fault {s : State} {r : FaultRecord} (hf : s.fault = some r) (o : HostOp) : o.apply s = s := by
  cases o with
  | load p => exact congrArg Prod.snd (loadProgram_of_fault hf p)
  | step => simp only [HostOp.apply, stepCall_of_fault hf]

theorem State.faultCode_of_fault {s : State} {r : FaultRecord} (hf : s.fault = some r) : s.faultCode = r.kind.code := by
  simp only [State.faultCode, hf]

theorem State.faultCode_of_none {s : State} (hf : s.fault = none) : s.faultCode = 0 := by
  simp only [State.faultCode, hf]

end Sys2Proof.Machine
end

section
/-! The statements about the faults (spec/60_exceptions.md), settled. -/

namespace Sys2Proof.Machine

/-- Settles O36: a halting step raises nothing, and the flush changes nothing that the two columns of R200's table read. -/
theorem faultsArisePerInstructionTable : Obligations.FaultsArisePerInstructionTable := by
  intro s hf
  obtain ⟨t, hstep⟩ := exists_step hf
  refine ⟨t, hstep, ?_⟩
  obtain ⟨-, ⟨hend, rfl⟩ | ⟨hlt, heffect⟩⟩ := step_effect hstep
  · simp [hf, hend.not_gt]
  · have hf' : s.flush.fault = none := by rw [State.flush_fault, hf]
    rw [heffect.raises_outOfBounds_iff hf', heffect.raises_unmatchedBracket_iff hf', decodeByte_mem_cellReaders_iff,
      decodeByte_eq_inp_iff, decodeByte_eq_iff (i := .loopBegin) rfl, decodeByte_eq_iff (i := .loopEnd) rfl]
    simp only [State.flush_imem, State.flush_dmem, State.flush_ip, State.flush_dp, State.flush_input,
      State.plen_eq_size, State.dmemSize_eq_size, hlt, true_and]
    exact Iff.rfl

/-- Settles O37: a halting step raises nothing, and a raise writes the record on the flushed state, with at most the input byte
gone. -/
theorem faultsArePrecise : Obligations.FaultsArePrecise := by
  intro s t r hstep ht
  obtain ⟨hf, ⟨-, rfl⟩ | ⟨hlt, heffect⟩⟩ := step_effect hstep
  · rw [State.flush_fault, hf] at ht; cases ht
  · have hcall := (CallEffect.raised hf hlt hstep ht).stepCall_eq
    obtain ⟨hfip, hraise⟩ := heffect.raise_cases (by rwa [State.flush_fault]) ht
    rw [State.flush_ip] at hfip
    rw [decodeByte_eq_inp_iff, State.flush_input, s.flush_eq] at hraise
    refine ⟨hcall, hfip, ?_⟩
    rcases hraise with rfl | ⟨hbyte, htaken, heq⟩
    · exact ⟨rfl, .inl rfl⟩
    · exact ⟨heq, .inr ⟨hbyte, htaken⟩⟩

/-- Settles O38: no operation of the host changes a faulted machine, so no list of them does. -/
theorem faultIsAbsorbing : Obligations.FaultIsAbsorbing := by
  intro ops s r hf
  have hfixed : applyAll ops s = s := List.foldl_fixed' (HostOp.apply_of_fault hf) ops
  rw [hfixed]
  exact ⟨rfl, loadProgram_of_fault hf, stepCall_of_fault hf⟩

/-- Settles O39: the code of a record is the code of its kind. -/
theorem faultRecordCodes : Obligations.FaultRecordCodes :=
  fun _ _ => ⟨State.faultCode_of_none, State.faultCode_of_fault, State.faultCode_of_fault⟩

end Sys2Proof.Machine
end

section
/-! SUPPORT. What a load leaves (spec/70_reset_and_hazards.md R232 to R235), and a machine that meets nothing but no-ops. -/

namespace Sys2Proof.Machine

/-! ### The load -/

/-- An installed program reads back byte for byte. -/
theorem Memory.read_ofBytes {p : List Byte} {k : Nat} {op : Byte} (h : p[k]? = some op) :
    (Memory.ofBytes p).read k = .ok op := by
  obtain ⟨hk, hop⟩ := List.getElem?_eq_some_iff.mp h
  have hget : (Memory.ofBytes p).get k = op := by
    rw [Memory.ofBytes, Memory.overlay_get (Memory.create_wf 0), if_pos (by omega), Nat.sub_zero,
      List.getD_eq_getElem _ _ hk, hop]
  rw [Memory.read_of_lt (by rwa [Memory.ofBytes_size]), hget]

/-- A load, accepted or refused, keeps the parameters (spec/00_scope.md R5). -/
theorem loadProgram_config (p : List Byte) (s : State) : (loadProgram p s).2.config = s.config := by
  by_cases h : s.fault = none ∧ p.length ≤ s.imemCap
  · rw [loadProgram_of_fits h.1 h.2]; rfl
  · rw [loadProgram_refused h]

/-! ### No-ops, one after another -/

/-- With nothing staged, the step of a machine that stands at a no-op moves `ip` alone (spec/45_nop.md R180). -/
theorem step_nop {s : State} (hf : s.fault = none) (hpout : s.pout = 0#8) (hlt : s.ip < s.imem.size)
    (hop : s.imem.get s.ip ∉ opcodeBytes) : step s = .next s.advance := by
  rw [step_of_lt hf hlt, decodeByte_of_notMem hop, s.flush_of_pout_zero hpout]
  exact Effect.nop.exec_eq

/-- So does any number of steps through a program that holds no opcode byte. -/
theorem stepN_nop {n : Nat} {s : State} (hf : s.fault = none) (hpout : s.pout = 0#8) (hlen : s.ip + n ≤ s.imem.size)
    (hops : ∀ a, s.imem.get a ∉ opcodeBytes) : stepN n s = .next { s with ip := s.ip + n } := by
  induction n generalizing s with
  | zero => rfl
  | succ n ih =>
    have hlt : s.ip < s.imem.size := by omega
    have hip : s.ip + (n + 1) = s.advance.ip + n := by rw [State.advance_ip]; omega
    rw [hip] at hlen ⊢
    rw [stepN, step_nop hf hpout hlt (hops s.ip)]
    exact ih (s := s.advance) hf hpout hlen hops

end Sys2Proof.Machine
end

section
/-! The statements about reset and load (spec/70_reset_and_hazards.md), settled. -/

namespace Sys2Proof.Machine

/-- Settles O46: an accepted load installs a canonical program that fits, with both pointers at 0; a refused one changes
nothing. -/
theorem loadKeepsInvariant : Obligations.LoadKeepsInvariant :=
  fun p s hinv => ⟨hinv.loadProgram p, loadProgram_config p s⟩

/-- Settles O49: the installed memory is the one of exactly the program's bytes. -/
theorem loadInstallsProgram : Obligations.LoadInstallsProgram := fun p _ hf hlen =>
  ⟨Memory.ofBytes p, loadProgram_of_fits hf hlen, Memory.ofBytes_size p, Memory.ofBytes_wf p,
    fun _ _ => Memory.read_ofBytes⟩

/-- Settles O51: creation fills instruction memory with 0, which is no opcode, so every step up to the end is a no-op, and at
the end there is nothing to flush. -/
theorem unloadedMachineRunsNoOpsThenHalts : Obligations.UnloadedMachineRunsNoOpsThenHalts := by
  rintro c input fresh k rfl hk
  have hops (a : Nat) : (State.create c input).imem.get a ∉ opcodeBytes := by
    change 0#8 ∉ opcodeBytes
    decide
  refine ⟨?_, fun hlt => ?_, ?_⟩
  · have hip : (State.create c input).ip + k = k := Nat.zero_add k
    have hrun := stepN_nop rfl rfl (hip.trans_le hk) hops
    rwa [hip] at hrun
  · exact (CallEffect.cont rfl hlt (step_nop rfl rfl hlt (hops k)) rfl).stepCall_eq
  · have hhalt := (CallEffect.halted (s := { State.create c input with ip := c.imemCap }) rfl le_rfl).stepCall_eq
    rwa [State.flush_of_pout_zero _ rfl] at hhalt

/-- Settles O48: every register is set outright, and a fresh memory reads 0 at each of its addresses. -/
theorem creationValues : Obligations.CreationValues := by
  intro c input
  have hread {n a : Nat} (ha : a < n) : (Memory.create n).read a = .ok 0#8 := (freshMemoryReadsZero n a).2.1 ha
  exact ⟨rfl, rfl, fun _ => hread, rfl, fun _ => hread, rfl, rfl, rfl, rfl, rfl⟩

/-- Settles O50: each of the two reasons breaks one half of the test a load must pass. -/
theorem loadRefusedWithoutEffect : Obligations.LoadRefusedWithoutEffect := by
  rintro p s (hlong | hfault)
  · exact loadProgram_refused fun ⟨_, hlen⟩ => absurd hlen (Nat.not_le.mpr hlong)
  · exact loadProgram_refused fun ⟨hnone, _⟩ => hfault hnone

end Sys2Proof.Machine
end

section
/-! The rows of the opcode table (spec/opcode_table.json), settled: an 8-bit table word is one byte, so the round trip of one
instruction (spec/30_encoding.md R83, R84) reads each row back. -/

namespace Sys2Proof.Machine

theorem decodeTableWord_eight (w : Nat) : decodeTableWord 8 w = some (decodeByte (BitVec.ofNat 8 w)) := by
  rw [decodeTableWord, tableBytes_eight, decode]

/-- The table word of a well-formed instruction is the number of its byte. -/
theorem decodeTableWord_encodeByte {i : Instr} (h : i.wellFormed = true) :
    decodeTableWord 8 (encodeByte i).toNat = some i := by
  rw [decodeTableWord_eight, BitVec.ofNat_toNat, BitVec.setWidth_eq, decodeByte_encodeByte h]

/-- Settles O2: each row's word is the number of its instruction's byte, and 0 is no opcode, so its NOP is well-formed. -/
theorem opcodeTableRowsDecode : Obligations.OpcodeTableRowsDecode :=
  have hnop : (Instr.nop 0#8).wellFormed = true := nop_wellFormed_iff.mpr (by decide)
  ⟨decodeTableWord_encodeByte (i := .right) rfl, decodeTableWord_encodeByte (i := .left) rfl,
    decodeTableWord_encodeByte (i := .inc) rfl, decodeTableWord_encodeByte (i := .dec) rfl,
    decodeTableWord_encodeByte (i := .loopBegin) rfl, decodeTableWord_encodeByte (i := .loopEnd) rfl,
    decodeTableWord_encodeByte (i := .out) rfl, decodeTableWord_encodeByte (i := .inp) rfl,
    decodeTableWord_encodeByte hnop⟩

end Sys2Proof.Machine
end
